-- ==== Sys2Proof/Word.lean ====
section
/-! DEFINITION. The words of the E1.31 packet framer and the names of its error causes.

Every value of the hardware is an unsigned integer of a stated width (00_scope.md section 5). -/

namespace Sys2Proof

/-- A byte: 8 bits (00_scope.md section 5). -/
abbrev Byte := BitVec 8

/-- A 16-bit register value, and the host's data path (20_memory.md R60, R61). -/
abbrev Half := BitVec 16

/-- A 12-bit location index of the host location space (20_memory.md R60, R62). -/
abbrev Loc := BitVec 12

/-- A 64-bit command word, bit 63 the most significant (30_encoding.md R90). -/
abbrev CmdWord := BitVec 64

/-- The causes of a `ValidationError`, complete (60_exceptions.md R231). -/
inductive ErrorCode where
  /-- `E_NAME`, code 1: the source name is empty or longer than 63 bytes. -/
  | name
  /-- `E_PRIORITY`, code 2: the priority is above 200. -/
  | priority
  /-- `E_SLOTS`, code 3: the universe's slot count is not 512. -/
  | slots
  /-- `E_UNIVERSE`, code 4: a universe number is outside 1 to 63999. -/
  | universeNumber
  /-- `E_PAGE`, code 5: more than 512 universes for one discovery packet. -/
  | page
  /-- `E_LENGTH`, code 6: a PDU length does not fit 12 bits. -/
  | length
  /-- `E_ILLEGAL`, code 7: the command word matches no row of the opcode table. -/
  | illegal
  deriving DecidableEq, Repr

end Sys2Proof
end

