-- ==== Sys2Proof/Syntax.lean ====
section
/-! DEFINITION. The commands of the framer: one constructor per row of `spec/opcode_table.json`. -/

namespace Sys2Proof

/-- The hardware has exactly seven commands (30_encoding.md R92). An operand is the field of the
command word it is taken from, at that field's width (R96). -/
inductive Instr where
  /-- `SETCID`: load the component identifier from the staging buffer (41_config_commands.md R151). -/
  | setcid
  /-- `SETNAME n`: set the source name to the first `n` staged bytes (R152). -/
  | setname (n : Half)
  /-- `SETPRI p`: set the priority (R153). -/
  | setpri (p : Half)
  /-- `DATA sync, seq, opt`: build a data packet (43_packet_commands.md R201). -/
  | data (sync : Half) (seq : Byte) (opt : Byte)
  /-- `SYNC sync, seq`: build a synchronization packet (R202). -/
  | sync (sync : Half) (seq : Byte)
  /-- `DISC seq`: build a universe discovery packet (R203). -/
  | disc (seq : Byte)
  /-- `FLEN len`: compute a Flags-and-Length value (40_length_calculator.md R135). -/
  | flen (len : Half)
  deriving DecidableEq, Repr

end Sys2Proof
end

