-- ==== Sys2Proof/WellFormed.lean ====
section
/-! DEFINITION. Which command words are well formed, read from the two FORMATS of 30_encoding.md
(R91, R93) and the must-be-zero column of R92.

An `Instr` is well formed by its type: every operand is a whole field of the command word, and every
value of the field is legal (R96; `SETNAME`, `SETPRI` and `FLEN` check their operand's range when
they run and answer with a returned error). What can be ill formed is a command WORD. This check is
written from the formats' fields; the decoder is written from the opcode table's masks (R94), and
`Sys2Proof/Laws/Encoding.lean` and the obligations compare the two. -/

namespace Sys2Proof

/-- The two command formats, told apart by the opcode alone (30_encoding.md R90). -/
inductive Format where
  /-- Format P, "packet call" (R91). -/
  | packet
  /-- Format I, "immediate" (R93). -/
  | immediate
  deriving DecidableEq, Repr

/-- The format of an opcode, and none for an opcode the hardware does not have (R92, R95). -/
def formatOf (op : Byte) : Option Format :=
  if op = 0x01 ∨ op = 0x02 ∨ op = 0x03 ∨ op = 0x20 then some .immediate
  else if op = 0x10 ∨ op = 0x11 ∨ op = 0x12 then some .packet
  else none

/-- The format's own `zero` field is 0: bits 23:0 of format P (R91), bits 55:16 of format I (R93). -/
def zeroFieldClear (w : CmdWord) : Format → Bool
  | .packet => w.extractLsb' 0 24 == 0
  | .immediate => w.extractLsb' 16 40 == 0

/-- The operand fields a command does not take are 0 too (R91, R92): `SETCID` takes no `imm`, `SYNC`
no `opt`, `DISC` neither `opt` nor `sync`. -/
def unusedOperandsClear (op : Byte) (w : CmdWord) : Bool :=
  (op != 0x01 || w.extractLsb' 0 16 == 0)
    && (op != 0x11 || w.extractLsb' 48 8 == 0)
    && (op != 0x12 || (w.extractLsb' 48 8 == 0 && w.extractLsb' 24 16 == 0))

/-- A command word is well formed when its opcode (bits 63:56) is defined and every field that must
be 0 is 0 (30_encoding.md R91 to R93, R95). -/
def wellFormedWord (w : CmdWord) : Bool :=
  match formatOf (w.extractLsb' 56 8) with
  | some f => zeroFieldClear w f && unusedOperandsClear (w.extractLsb' 56 8) w
  | none => false

end Sys2Proof
end

