-- ==== Sys2Proof/Decode.lean ====
section
/-! DEFINITION. Command words: the opcode table, the decoder and the encoder (30_encoding.md part A).

A command word is not fetched from any memory: the host presents it whole with the `CMD` action
(20_memory.md R60, R73). -/

namespace Sys2Proof

/-- The operand field `opt = w[55:48]` (30_encoding.md R91, R96). -/
def optField (w : CmdWord) : Byte := w.extractLsb' 48 8
/-- The operand field `seq = w[47:40]` (R91, R96). -/
def seqField (w : CmdWord) : Byte := w.extractLsb' 40 8
/-- The operand field `sync = w[39:24]` (R91, R96). -/
def syncField (w : CmdWord) : Half := w.extractLsb' 24 16
/-- The operand field `imm = w[15:0]` (R93, R96). -/
def immField (w : CmdWord) : Half := w.extractLsb' 0 16

/-- One row of the opcode map of 30_encoding.md R92: a word is the row's command if and only if
`w & mask = bits`, and `build` takes its operand fields. -/
structure OpcodeRow where
  mnemonic : String
  bits : CmdWord
  mask : CmdWord
  build : CmdWord → Instr

/-- The opcode map, the rows in the order of 30_encoding.md R92. -/
def opcodeMap : List OpcodeRow :=
  [ ⟨"SETCID", 0x0100000000000000, 0xFFFFFFFFFFFFFFFF, fun _ => .setcid⟩,
    ⟨"SETNAME", 0x0200000000000000, 0xFFFFFFFFFFFF0000, fun w => .setname (immField w)⟩,
    ⟨"SETPRI", 0x0300000000000000, 0xFFFFFFFFFFFF0000, fun w => .setpri (immField w)⟩,
    ⟨"DATA", 0x1000000000000000, 0xFF00000000FFFFFF,
      fun w => .data (syncField w) (seqField w) (optField w)⟩,
    ⟨"SYNC", 0x1100000000000000, 0xFFFF000000FFFFFF, fun w => .sync (syncField w) (seqField w)⟩,
    ⟨"DISC", 0x1200000000000000, 0xFFFF00FFFFFFFFFF, fun w => .disc (seqField w)⟩,
    ⟨"FLEN", 0x2000000000000000, 0xFFFFFFFFFFFF0000, fun w => .flen (immField w)⟩ ]

/-- The word satisfies the row's equation `w & mask = bits` (R92). -/
def matchesRow (w : CmdWord) (r : OpcodeRow) : Bool := w &&& r.mask == r.bits

/-- Decoding (30_encoding.md R94): the command of the row that matches, and `E_ILLEGAL` for a word
no row matches (R95). It reads no state. -/
def decode (w : CmdWord) : Except ErrorCode Instr :=
  match opcodeMap.find? (matchesRow w) with
  | some r => .ok (r.build w)
  | none => .error .illegal

/-- The command word of an instruction, as the assembler notation of 30_encoding.md R97 writes it. -/
def encode : Instr → CmdWord
  | .setcid => 0x0100000000000000
  | .setname n => 0x0200000000000000 ||| n.setWidth 64
  | .setpri p => 0x0300000000000000 ||| p.setWidth 64
  | .data sync seq opt =>
    0x1000000000000000 ||| opt.setWidth 64 <<< 48 ||| seq.setWidth 64 <<< 40 ||| sync.setWidth 64 <<< 24
  | .sync sync seq => 0x1100000000000000 ||| seq.setWidth 64 <<< 40 ||| sync.setWidth 64 <<< 24
  | .disc seq => 0x1200000000000000 ||| seq.setWidth 64 <<< 40
  | .flen len => 0x2000000000000000 ||| len.setWidth 64

/-- The command word whose low `nbits` bits are `w`'s and whose other bits are 0. Every command is
one 64-bit word (R90), numbered as the opcode table numbers it: bit 0 the least significant. -/
def tableWord (nbits w : Nat) : CmdWord := BitVec.ofNat 64 (w % 2 ^ nbits)

/-- The instruction the decoder reads from an opcode-table word, and none where it refuses: a word no row
matches (R95), or one that is no single 64-bit word (R90). -/
def decodeTableWord (nbits w : Nat) : Option Instr :=
  if w % 2 ^ nbits < 2 ^ 64 then
    match decode (tableWord nbits w) with
    | .ok i => some i
    | .error _ => none
  else none

end Sys2Proof
end

