-- ==== Sys2Proof/Machine/Buffer.lean ====
section
/-! DEFINITION. A buffer: a fixed number of like registers (10_state.md R20, the elements with an index
range), and the only ways it is read and written. -/

namespace Sys2Proof.Machine

/-- `n` locations of `w` bits each, index 0 first. The length is part of the type, so a buffer always
has exactly the elements the spec gives it, and equal buffers are equal data. -/
structure Buf (w n : Nat) where
  cells : List (BitVec w)
  size : cells.length = n
  deriving DecidableEq, Repr

/-- The buffer whose every element is 0. -/
def Buf.zero (w n : Nat) : Buf w n := ⟨List.replicate n 0, List.length_replicate⟩

/-- The element at index `i`. Only indexes below `n` name an element, and no rule reads at another. -/
def Buf.get {w n : Nat} (b : Buf w n) (i : Nat) : BitVec w := b.cells.getD i 0

/-- The buffer with the element at index `i` replaced. -/
def Buf.set {w n : Nat} (b : Buf w n) (i : Nat) (v : BitVec w) : Buf w n :=
  ⟨b.cells.set i v, by rw [List.length_set, b.size]⟩

/-- The buffer whose element at index `i` is `f i`. -/
def Buf.build {w n : Nat} (f : Nat → BitVec w) : Buf w n :=
  ⟨(List.range n).map f, by rw [List.length_map, List.length_range]⟩

/-- `B[0 .. len(bs) - 1] <- bs`: the list written from index 0 on, every other element kept
(10_state.md R33). What would lie past the buffer's end is dropped, which no command reaches. -/
def Buf.overwrite {w n : Nat} (b : Buf w n) (bs : List (BitVec w)) : Buf w n :=
  ⟨(bs ++ b.cells.drop bs.length).take n, by
    rw [List.length_take, List.length_append, List.length_drop, b.size]
    omega⟩

end Sys2Proof.Machine
end

