-- ==== Sys2Proof/Machine/State.lean ====
section
/-! DEFINITION. The architectural state (10_state.md R20), the host actions (20_memory.md R60), the named
locations (R61), the stop reasons, and the state after reset (10_state.md R41). -/

namespace Sys2Proof.Machine

/-- The host's four actions (20_memory.md R60). Each is one indivisible event. -/
inductive HostAction where
  /-- `WR loc, v`: write one location. -/
  | wr (loc : Loc) (v : Half)
  /-- `RD loc`: read one location. -/
  | rd (loc : Loc)
  /-- `CMD w`: present one command word. -/
  | cmd (w : CmdWord)
  /-- `RESET`. -/
  | reset
  deriving DecidableEq, Repr

/-- What a mapped location of the host location space holds: one register or one buffer element
(20_memory.md R61). -/
inductive Element where
  | stg (i : Fin 64)
  | univ
  | slotCnt
  | uCnt
  | page
  | lastPage
  | priority
  | nameLen
  | status
  | outLen
  | flRes
  | cid (i : Fin 16)
  | srcName (i : Fin 64)
  | slot (i : Fin 512)
  | uList (i : Fin 512)
  | out (i : Fin 1144)
  deriving DecidableEq, Repr

/-- The state: the sixteen elements of 10_state.md R20, and the two ends of the host port. -/
structure State where
  /-- `CID[0..15]`: the component identifier (R21). -/
  cid : Buf 8 16
  /-- `SRCNAME[0..63]`: the Source Name field, as it goes on the wire (R22). -/
  srcName : Buf 8 64
  /-- `NAMELEN`: the length in bytes of the source name (R23). -/
  nameLen : Byte
  /-- `PRIORITY` (R24). -/
  priority : Byte
  /-- `STG[0..63]`: the staging buffer (R25). -/
  stg : Buf 8 64
  /-- `SLOT[0..511]`: the universe's slot values (R26). -/
  slot : Buf 8 512
  /-- `SLOTCNT`: the number of slots the host declares (R27). -/
  slotCnt : Half
  /-- `UNIV`: the universe number (R28). -/
  univ : Half
  /-- `ULIST[0..511]`: the universe numbers to advertise (R29). -/
  uList : Buf 16 512
  /-- `UCNT`: how many entries of `ULIST` are advertised (R30). -/
  uCnt : Half
  /-- `PAGE` (R31). -/
  page : Byte
  /-- `LASTPAGE` (R32). -/
  lastPage : Byte
  /-- `OUT[0..1143]`: the output buffer (R33). -/
  out : Buf 8 1144
  /-- `OUTLEN`: the number of valid bytes in `OUT` (R34). -/
  outLen : Half
  /-- `STATUS`: the outcome of the last command (R35). -/
  status : Byte
  /-- `FLRES`: the result of the last successful `FLEN` (R36). -/
  flRes : Half
  /-- The MODEL'S OWN: the host's actions not yet performed, the next first (20_memory.md R71). -/
  host : List HostAction
  /-- The MODEL'S OWN: the values the host's `RD` actions have returned, the latest first (R64). -/
  returned : List Half
  deriving DecidableEq, Repr

/-- The reasons a step can stop with a fault: NONE. The hardware "has no other exception, no fault, no
abort, no machine check: every command on every state completes" (60_exceptions.md R230). -/
inductive Fault where
  deriving DecidableEq, Repr

/-- The reasons a step can be refused. -/
inductive Refusal where
  /-- An instruction that has no meaning in the model. Raised by `exec` alone, in the arm of such an
  instruction; safe. No arm raises it: every command has its meaning. -/
  | notModelled (mnemonic : String)
  deriving DecidableEq, Repr

/-- The state right after reset: every element at the value of 10_state.md R41, and nothing asked by
the host yet. -/
def State.reset : State where
  cid := Buf.zero 8 16
  srcName := Buf.zero 8 64
  nameLen := 0
  priority := 100
  stg := Buf.zero 8 64
  slot := Buf.zero 8 512
  slotCnt := 0
  univ := 0
  uList := Buf.zero 16 512
  uCnt := 0
  page := 0
  lastPage := 0
  out := Buf.zero 8 1144
  outLen := 0
  status := 0x00
  flRes := 0x0000
  host := []
  returned := []

end Sys2Proof.Machine
end

