-- ==== Sys2Proof/Machine/Flags.lean ====
section
/-! DEFINITION. The flags: the `STATUS` register's bits and how a completion computes them (10_state.md R35,
60_exceptions.md R231, R233, R234). -/

namespace Sys2Proof.Machine

/-- The number of an error cause (60_exceptions.md R231). -/
def errorNumber : ErrorCode → BitVec 4
  | .name => 1
  | .priority => 2
  | .slots => 3
  | .universeNumber => 4
  | .page => 5
  | .length => 6
  | .illegal => 7

/-- `STATUS` after a success: `OK` alone (60_exceptions.md R234). -/
def statusSuccess : Byte := 0x01

/-- `STATUS` after a `ValidationError`: `(c << 4) | 0x02` (60_exceptions.md R233). -/
def statusError (c : ErrorCode) : Byte := (errorNumber c).setWidth 8 <<< 4 ||| 0x02

/-- The `OK` bit, bit 0 of `STATUS` (10_state.md R35). -/
def okBit (status : Byte) : Bool := status.getLsbD 0

/-- The `ERR` bit, bit 1 of `STATUS` (R35). -/
def errBit (status : Byte) : Bool := status.getLsbD 1

/-- The `CODE` field, bits 7:4 of `STATUS` (R35). -/
def codeField (status : Byte) : BitVec 4 := status.extractLsb' 4 4

end Sys2Proof.Machine
end

