-- ==== Sys2Proof/Config.lean ====
section
/-! DEFINITION. The parameters of 00_scope.md section 4, as named constants.

The spec leaves no parameter open ("None is left open to the model as an argument"), so this file
holds numbers only: there is no implementation choice and no free value. -/

namespace Sys2Proof.Config

/-- `N_SLOTS`: the slots of a universe. -/
@[simp] def nSlots : Nat := 512
/-- `N_PROP`: the DMP property value count, the start code and the slots. -/
@[simp] def nProp : Nat := 513
/-- `NAME_FIELD`: the bytes of the Source Name field. -/
@[simp] def nameField : Nat := 64
/-- `NAME_MIN`: the shortest accepted source name, in bytes. -/
@[simp] def nameMin : Nat := 1
/-- `NAME_MAX`: the longest accepted source name, in bytes. -/
@[simp] def nameMax : Nat := 63
/-- `CID_BYTES`: the bytes of the component identifier. -/
@[simp] def cidBytes : Nat := 16
/-- `PRI_MAX`: the highest accepted priority (`PRI_MIN` is 0, which no unsigned number undercuts). -/
@[simp] def priMax : Nat := 200
/-- `UNIV_MIN`: the lowest valid universe number. -/
@[simp] def univMin : Nat := 1
/-- `UNIV_MAX`: the highest valid universe number. -/
@[simp] def univMax : Nat := 63999
/-- `PAGE_ENTRIES`: the largest universe list of one discovery packet. -/
@[simp] def pageEntries : Nat := 512
/-- `LEN_MAX`: the largest PDU length, 12 bits. -/
@[simp] def lenMax : Nat := 4095
/-- `ROOT_PRE`: the root layer's bytes before its Flags-and-Length field. -/
@[simp] def rootPre : Nat := 16
/-- `ROOT_HDR`: the root layer's bytes from its Flags-and-Length field on (90_conflicts.md C2). -/
@[simp] def rootHdr : Nat := 22
/-- `FRM_DATA`: the bytes of the data framing header. -/
@[simp] def frmData : Nat := 77
/-- `FRM_SYNC`: the bytes of the sync framing layer. -/
@[simp] def frmSync : Nat := 11
/-- `FRM_DISC`: the bytes of the discovery framing header. -/
@[simp] def frmDisc : Nat := 74
/-- `DMP_LEN`: the bytes of the DMP layer. -/
@[simp] def dmpLen : Nat := 523
/-- `UDL_HDR`: the bytes of the Universe Discovery Layer before its list. -/
@[simp] def udlHdr : Nat := 8
/-- `OUT_CAP`: the bytes of the output buffer, a discovery packet of 512 universes. -/
@[simp] def outCap : Nat := 1144

end Sys2Proof.Config
end

