-- ==== Sys2Proof/Machine/Operands.lean ====
section
/-! DEFINITION. Operand forms: how a value is laid out on the wire, which operand values a command accepts,
and what a command reads from the operand buffers. -/

namespace Sys2Proof.Machine

/-- The two bytes of a 16-bit field, most significant first (00_scope.md section 5, 20_memory.md R66). -/
def be16 (v : Half) : List Byte := [v.extractLsb' 8 8, v.extractLsb' 0 8]

/-- The four bytes of a 32-bit field, most significant first (00_scope.md section 5, 20_memory.md R66). -/
def be32 (v : BitVec 32) : List Byte :=
  [v.extractLsb' 24 8, v.extractLsb' 16 8, v.extractLsb' 8 8, v.extractLsb' 0 8]

/-- The Options Flags byte on the wire: bits 4:0 are forced to 0 (30_encoding.md R103). -/
def wireOptions (opt : Byte) : Byte := opt &&& 0xE0

/-- A name length `SETNAME` accepts (41_config_commands.md R152). -/
def nameLengthOk (n : Half) : Bool :=
  decide (Config.nameMin ≤ n.toNat) && decide (n.toNat ≤ Config.nameMax)

/-- A priority `SETPRI` accepts (41_config_commands.md R153). -/
def priorityOk (p : Half) : Bool := decide (p.toNat ≤ Config.priMax)

/-- A valid universe number: 1 to 63999 (43_packet_commands.md R201, R203). -/
def universeOk (u : Half) : Bool :=
  decide (Config.univMin ≤ u.toNat) && decide (u.toNat ≤ Config.univMax)

/-- The component identifier `SETCID` loads: `STG[0..15]` (41_config_commands.md R151). -/
def stagedCid (s : State) : Buf 8 16 := Buf.build s.stg.get

/-- The Source Name field `SETNAME n` stores: the first `n` staged bytes, then zeros
(41_config_commands.md R152). -/
def stagedName (n : Nat) (s : State) : Buf 8 64 :=
  Buf.build fun i => if i < n then s.stg.get i else 0x00

/-- The universe numbers a `DISC` advertises: `ULIST[0..UCNT-1]` (10_state.md R29). -/
def advertised (s : State) : List Half := s.uList.cells.take s.uCnt.toNat

/-- A number inserted before the first greater-or-equal number of a list. -/
def insertAsc (u : Half) : List Half → List Half
  | [] => [u]
  | v :: vs => if u.toNat ≤ v.toNat then u :: v :: vs else v :: insertAsc u vs

/-- `sort_asc`: the list in non-decreasing unsigned order, equal values kept (00_scope.md section 5,
42_layer_codecs.md R175). -/
def sortAsc : List Half → List Half
  | [] => []
  | u :: us => insertAsc u (sortAsc us)

end Sys2Proof.Machine
end

