-- ==== Sys2Proof/Machine/Ops.lean ====
section
/-! DEFINITION. How a command ends: with success, with a packet, or with a `ValidationError`
(60_exceptions.md section 2, 43_packet_commands.md R200). -/

namespace Sys2Proof.Machine

/-- Completion with success: `STATUS <- 0x01` (60_exceptions.md R234). -/
def succeed (s : State) : State := { s with status := statusSuccess }

/-- Completion with a `ValidationError` (60_exceptions.md R233): `STATUS` takes the code, and for an
encode command `OUTLEN` is set to 0; nothing else changes. There is no handler, no saved state and no
return: the next command runs normally (R236). -/
def raiseError (encodeCommand : Bool) (c : ErrorCode) (s : State) : State :=
  { s with
    status := statusError c
    outLen := if encodeCommand then 0 else s.outLen }

/-- The commit step of an encode command (43_packet_commands.md R200): the packet to
`OUT[0..L-1]`, `OUTLEN <- L`, `STATUS <- 0x01`. -/
def commitPacket (pkt : List Byte) (s : State) : State :=
  { s with
    out := s.out.overwrite pkt
    outLen := BitVec.ofNat 16 pkt.length
    status := statusSuccess }

/-- How an encode command completes once its checks, lengths and layers are worked out (R200). -/
def finishEncode (result : Except ErrorCode (List Byte)) (s : State) :
    Host.Outcome State Fault Refusal :=
  match result with
  | .ok pkt => .next (commitPacket pkt s)
  | .error c => .next (raiseError true c s)

end Sys2Proof.Machine
end

