-- ==== Sys2Proof/Machine/Identity.lean ====
section
/-! DEFINITION. The configuration commands (41_config_commands.md). -/

namespace Sys2Proof.Machine

/-- `SETCID`: the component identifier from the staging buffer (41_config_commands.md R151). -/
def execSetcid (s : State) : Host.Outcome State Fault Refusal :=
  .next (succeed { s with cid := stagedCid s })

/-- `SETNAME n`: the source name from the staging buffer, or `E_NAME` (R152). -/
def execSetname (n : Half) (s : State) : Host.Outcome State Fault Refusal :=
  if nameLengthOk n then
    .next (succeed { s with srcName := stagedName n.toNat s, nameLen := n.extractLsb' 0 8 })
  else .next (raiseError false .name s)

/-- `SETPRI p`: the priority, or `E_PRIORITY` (R153). -/
def execSetpri (p : Half) (s : State) : Host.Outcome State Fault Refusal :=
  if priorityOk p then .next (succeed { s with priority := p.extractLsb' 0 8 })
  else .next (raiseError false .priority s)

end Sys2Proof.Machine
end

