-- ==== Sys2Proof/Machine/Lengths.lean ====
section
/-! DEFINITION. The nested PDU length calculator and `FLEN` (40_length_calculator.md). -/

namespace Sys2Proof.Machine

/-- `FL(len)`: the Flags-and-Length value of a PDU of `len` bytes, refused above 12 bits
(40_length_calculator.md R130). -/
def flagsAndLength (len : Nat) : Except ErrorCode Half :=
  if len > Config.lenMax then .error .length else .ok (0x7000#16 ||| BitVec.ofNat 16 len)

/-- The three packet kinds; a discovery packet's with the number of its list entries (R133). -/
inductive PacketKind where
  | data
  | sync
  | disc (n : Nat)
  deriving DecidableEq, Repr

/-- The length of a Universe Discovery Layer with `n` entries (R132, R133). -/
def udlLen (n : Nat) : Nat := Config.udlHdr + 2 * n

/-- The PDU length of the payload layer, and none for a sync packet (R133). -/
def payLen : PacketKind → Option Nat
  | .data => some Config.dmpLen
  | .sync => none
  | .disc n => some (udlLen n)

/-- The framing layer's own counted bytes (R132). -/
def framingOwn : PacketKind → Nat
  | .data => Config.frmData
  | .sync => Config.frmSync
  | .disc _ => Config.frmDisc

/-- The PDU length of the framing layer: its own bytes and the layer nested in it (R131, R133). -/
def frameLen (k : PacketKind) : Nat := framingOwn k + (payLen k).getD 0

/-- The PDU length of the root layer (R131, R133). -/
def rootLen (k : PacketKind) : Nat := Config.rootHdr + frameLen k

/-- The length of a whole packet: the root layer's uncounted prefix and its PDU (R134). -/
def packetLen (k : PacketKind) : Nat := Config.rootPre + rootLen k

/-- `FLEN len` (R135). -/
def execFlen (len : Half) (s : State) : Host.Outcome State Fault Refusal :=
  match flagsAndLength len.toNat with
  | .ok v => .next (succeed { s with flRes := v })
  | .error c => .next (raiseError false c s)

end Sys2Proof.Machine
end

