-- ==== Sys2Proof/Machine/Layers.lean ====
section
/-! DEFINITION. The layer encoders: Root, Framing, DMP, Universe Discovery (42_layer_codecs.md, the layouts of
30_encoding.md part B). They write no state; `FL` inside them may raise `E_LENGTH`. -/

namespace Sys2Proof.Machine

/-- The ACN Packet Identifier, "ASC-E1.17" and three zeros (42_layer_codecs.md). -/
def acnId : List Byte := [0x41, 0x53, 0x43, 0x2d, 0x45, 0x31, 0x2e, 0x31, 0x37, 0x00, 0x00, 0x00]

/-- The root vector "E131 Data" (30_encoding.md R108). -/
def vectorData : BitVec 32 := 0x00000004

/-- The root vector "E131 Extended" (R108). -/
def vectorExtended : BitVec 32 := 0x00000008

/-- `BuildRoot(vector, rootLen)`, 38 bytes (42_layer_codecs.md R170). -/
def buildRoot (vector : BitVec 32) (len : Nat) (s : State) : Except ErrorCode (List Byte) := do
  let fl ← flagsAndLength len
  return be16 0x0010 ++ be16 0x0000 ++ acnId ++ be16 fl ++ be32 vector ++ s.cid.cells

/-- `BuildFramingData(frameLen, sync, seq, opt)`, 77 bytes (R171). -/
def buildFramingData (len : Nat) (sync : Half) (seq opt : Byte) (s : State) :
    Except ErrorCode (List Byte) := do
  let fl ← flagsAndLength len
  return be16 fl ++ be32 0x00000002 ++ s.srcName.cells ++ [s.priority] ++ be16 sync ++ [seq]
    ++ [wireOptions opt] ++ be16 s.univ

/-- `BuildFramingSync(frameLen, sync, seq)`, 11 bytes (R172). -/
def buildFramingSync (len : Nat) (sync : Half) (seq : Byte) : Except ErrorCode (List Byte) := do
  let fl ← flagsAndLength len
  return be16 fl ++ be32 0x00000001 ++ [seq] ++ be16 sync ++ be16 0x0000

/-- `BuildFramingDisc(frameLen)`, 74 bytes (R173). -/
def buildFramingDisc (len : Nat) (s : State) : Except ErrorCode (List Byte) := do
  let fl ← flagsAndLength len
  return be16 fl ++ be32 0x00000002 ++ s.srcName.cells ++ be32 0x00000000

/-- `BuildDMP(payLen)`, 523 bytes (R174). The start code is the constant 0x00 (10_state.md R37). -/
def buildDmp (len : Nat) (s : State) : Except ErrorCode (List Byte) := do
  let fl ← flagsAndLength len
  return be16 fl ++ [0x02] ++ [0xA1] ++ be16 0x0000 ++ be16 0x0001
    ++ be16 (BitVec.ofNat 16 Config.nProp) ++ [0x00] ++ s.slot.cells

/-- `BuildUDL(payLen, n)`, 8 + 2n bytes: a sorted private copy of the list (R175). -/
def buildUdl (len : Nat) (s : State) : Except ErrorCode (List Byte) := do
  let fl ← flagsAndLength len
  return be16 fl ++ be32 0x00000001 ++ [s.page] ++ [s.lastPage]
    ++ (sortAsc (advertised s)).flatMap be16

end Sys2Proof.Machine
end

