-- ==== Sys2Proof/Machine/Packets.lean ====
section
/-! DEFINITION. The packet commands (43_packet_commands.md): validate, compute the lengths innermost first, build
the layers outermost first, commit (R200, 42_layer_codecs.md R176). -/

namespace Sys2Proof.Machine

/-- The checks of `DATA`, in order: `E_SLOTS`, then `E_UNIVERSE` (43_packet_commands.md R201). -/
def validateData (s : State) : Except ErrorCode Unit :=
  if s.slotCnt.toNat ≠ Config.nSlots then .error .slots
  else if universeOk s.univ then .ok ()
  else .error .universeNumber

/-- The bytes of a data packet (42_layer_codecs.md R176). -/
def dataPacket (sync : Half) (seq opt : Byte) (s : State) : Except ErrorCode (List Byte) := do
  validateData s
  let root ← buildRoot vectorData (rootLen .data) s
  let framing ← buildFramingData (frameLen .data) sync seq opt s
  let dmp ← buildDmp Config.dmpLen s
  return root ++ framing ++ dmp

/-- `DATA sync, seq, opt` (43_packet_commands.md R201). -/
def execData (sync : Half) (seq opt : Byte) (s : State) : Host.Outcome State Fault Refusal :=
  finishEncode (dataPacket sync seq opt s) s

/-- The bytes of a sync packet (42_layer_codecs.md R176). It makes no check. -/
def syncPacket (sync : Half) (seq : Byte) (s : State) : Except ErrorCode (List Byte) := do
  let root ← buildRoot vectorExtended (rootLen .sync) s
  let framing ← buildFramingSync (frameLen .sync) sync seq
  return root ++ framing

/-- `SYNC sync, seq` (43_packet_commands.md R202). -/
def execSync (sync : Half) (seq : Byte) (s : State) : Host.Outcome State Fault Refusal :=
  finishEncode (syncPacket sync seq s) s

/-- The checks of `DISC`, in order: `E_PAGE`, then `E_UNIVERSE` (43_packet_commands.md R203). -/
def validateDisc (s : State) : Except ErrorCode Unit :=
  if s.uCnt.toNat > Config.pageEntries then .error .page
  else if (advertised s).all universeOk then .ok ()
  else .error .universeNumber

/-- The bytes of a universe discovery packet (42_layer_codecs.md R176). -/
def discPacket (s : State) : Except ErrorCode (List Byte) := do
  validateDisc s
  let n := s.uCnt.toNat
  let root ← buildRoot vectorExtended (rootLen (.disc n)) s
  let framing ← buildFramingDisc (frameLen (.disc n)) s
  let udl ← buildUdl (udlLen n) s
  return root ++ framing ++ udl

/-- `DISC seq` (43_packet_commands.md R203). `seq` is accepted with every value and used for nothing:
no field of the packet carries it (90_conflicts.md C6). -/
def execDisc (_seq : Byte) (s : State) : Host.Outcome State Fault Refusal :=
  finishEncode (discPacket s) s

end Sys2Proof.Machine
end

