-- ==== Sys2Proof/Machine/Dispatch.lean ====
section
/-! DEFINITION. The meaning of each command, one arm per constructor of `Instr`. -/

namespace Sys2Proof.Machine

def exec (i : Instr) (s : State) : Host.Outcome State Fault Refusal :=
  match i with
  | .setcid => Sys2Proof.Machine.execSetcid s
  | .setname n => Sys2Proof.Machine.execSetname n s
  | .setpri p => Sys2Proof.Machine.execSetpri p s
  | .data sync seq opt => Sys2Proof.Machine.execData sync seq opt s
  | .sync sync seq => Sys2Proof.Machine.execSync sync seq s
  | .disc seq => Sys2Proof.Machine.execDisc seq s
  | .flen len => Sys2Proof.Machine.execFlen len s

end Sys2Proof.Machine
end

