-- ==== Sys2Proof/Machine/Port.lean ====
section
/-! DEFINITION. The host location space: the location map, `WR`, `RD` and `RESET` (20_memory.md,
70_reset_and_hazards.md R260). -/

namespace Sys2Proof.Machine

/-- The location map, complete: what each of the 4096 locations holds, and none where it is unmapped
(20_memory.md R61). -/
def locate (loc : Loc) : Option Element :=
  let a := loc.toNat
  if h : a < 0x040 then some (.stg ⟨a, h⟩)
  else if a = 0x040 then some .univ
  else if a = 0x041 then some .slotCnt
  else if a = 0x042 then some .uCnt
  else if a = 0x043 then some .page
  else if a = 0x044 then some .lastPage
  else if a = 0x048 then some .priority
  else if a = 0x049 then some .nameLen
  else if a = 0x04A then some .status
  else if a = 0x04B then some .outLen
  else if a = 0x04C then some .flRes
  else if h : 0x050 ≤ a ∧ a ≤ 0x05F then some (.cid ⟨a - 0x050, by omega⟩)
  else if h : 0x080 ≤ a ∧ a ≤ 0x0BF then some (.srcName ⟨a - 0x080, by omega⟩)
  else if h : 0x200 ≤ a ∧ a ≤ 0x3FF then some (.slot ⟨a - 0x200, by omega⟩)
  else if h : 0x400 ≤ a ∧ a ≤ 0x5FF then some (.uList ⟨a - 0x400, by omega⟩)
  else if h : 0x800 ≤ a ∧ a ≤ 0xC77 then some (.out ⟨a - 0x800, by omega⟩)
  else none

/-- The value of a location, an 8-bit one widened with zeros (20_memory.md R64). -/
def readElement (e : Element) (s : State) : Half :=
  match e with
  | .stg i => (s.stg.get i.val).setWidth 16
  | .univ => s.univ
  | .slotCnt => s.slotCnt
  | .uCnt => s.uCnt
  | .page => s.page.setWidth 16
  | .lastPage => s.lastPage.setWidth 16
  | .priority => s.priority.setWidth 16
  | .nameLen => s.nameLen.setWidth 16
  | .status => s.status.setWidth 16
  | .outLen => s.outLen
  | .flRes => s.flRes
  | .cid i => (s.cid.get i.val).setWidth 16
  | .srcName i => (s.srcName.get i.val).setWidth 16
  | .slot i => (s.slot.get i.val).setWidth 16
  | .uList i => s.uList.get i.val
  | .out i => (s.out.get i.val).setWidth 16

/-- A location written by the host: a 16-bit `RW` one takes `v`, an 8-bit `RW` one takes `v[7:0]`, and
an `RO` one keeps its value (20_memory.md R63, the access column of R61). -/
def writeElement (e : Element) (v : Half) (s : State) : State :=
  match e with
  | .stg i => { s with stg := s.stg.set i.val (v.extractLsb' 0 8) }
  | .univ => { s with univ := v }
  | .slotCnt => { s with slotCnt := v }
  | .uCnt => { s with uCnt := v }
  | .page => { s with page := v.extractLsb' 0 8 }
  | .lastPage => { s with lastPage := v.extractLsb' 0 8 }
  | .slot i => { s with slot := s.slot.set i.val (v.extractLsb' 0 8) }
  | .uList i => { s with uList := s.uList.set i.val v }
  | .priority => s
  | .nameLen => s
  | .status => s
  | .outLen => s
  | .flRes => s
  | .cid _ => s
  | .srcName _ => s
  | .out _ => s

/-- What `RD loc` returns: 0x0000 at an unmapped location (20_memory.md R64). -/
def readLoc (loc : Loc) (s : State) : Half :=
  match locate loc with
  | some e => readElement e s
  | none => 0x0000

/-- `WR loc, v`: dropped at an unmapped location, never an error (20_memory.md R63). -/
def hostWrite (loc : Loc) (v : Half) (s : State) : State :=
  match locate loc with
  | some e => writeElement e v s
  | none => s

/-- `RD loc`: the value goes to the host and none of the sixteen elements changes (20_memory.md R64). -/
def hostRead (loc : Loc) (s : State) : State :=
  { s with returned := readLoc loc s :: s.returned }

/-- `RESET`: every element takes its reset value at once (70_reset_and_hazards.md R260). What the host
has still to do and what it has already been answered are the host's, and stay. -/
def hostReset (s : State) : State :=
  { State.reset with host := s.host, returned := s.returned }

end Sys2Proof.Machine
end

