-- ==== Sys2Proof/Machine/Actions.lean ====
section
/-! DEFINITION. What each host action does (20_memory.md R60). -/

namespace Sys2Proof.Machine

/-- `CMD w`: decode and execute as one atomic step (20_memory.md R60, R70); a word no row matches
completes with `E_ILLEGAL` and reads no state (30_encoding.md R94, R95). -/
def hostCommand (w : CmdWord) (s : State) : Host.Outcome State Fault Refusal :=
  match decode w with
  | .ok i => exec i s
  | .error c => .next (raiseError false c s)

/-- One host action, applied whole (20_memory.md R60, R70). -/
def perform (a : HostAction) (s : State) : Host.Outcome State Fault Refusal :=
  match a with
  | .wr loc v => .next (hostWrite loc v s)
  | .rd loc => .next (hostRead loc s)
  | .cmd w => hostCommand w s
  | .reset => .next (hostReset s)

/-- The host's next action taken off the port. -/
def takeAction (rest : List HostAction) (s : State) : State := { s with host := rest }

/-- A command word presented next, before anything else the host has to do. -/
def presentCommand (w : CmdWord) (s : State) : State := { s with host := .cmd w :: s.host }

end Sys2Proof.Machine
end

