-- ==== Sys2Proof/Machine/Step.lean ====
section
/-! DEFINITION. One step: the next host action, in the order the host issues them (20_memory.md R71). -/

namespace Sys2Proof.Machine

/-- The step. Without a host action nothing happens and all state survives (60_exceptions.md R237,
R244). -/
def step (s : State) : Host.Outcome State Fault Refusal :=
  match s.host with
  | [] => .next s
  | a :: rest => perform a (takeAction rest s)

/-- The state in which the very next step runs the command word given: commands come from the host's
`CMD` action and from no memory (10_state.md R38, 20_memory.md R73). -/
def State.withFetchWord (s : State) (nbits w : Nat) : State := presentCommand (tableWord nbits w) s

end Sys2Proof.Machine
end

