-- ==== Sys2Proof/Machine/Assembler.lean ====
section
/-! DEFINITION. The assembler notation: the spec's pseudo-instructions and the source's calls as the host
actions they expand to (30_encoding.md R97, R98). They add no behaviour. -/

namespace Sys2Proof.Machine

/-- `WR base + i, v_i` for each value of a list, in order. -/
def writesFrom : Nat → List Half → List HostAction
  | _, [] => []
  | base, v :: vs => .wr (BitVec.ofNat 12 base) v :: writesFrom (base + 1) vs

/-- Bytes as the values of 8-bit locations. -/
def asValues (bs : List Byte) : List Half := bs.map fun b => b.setWidth 16

/-- `LDCID b0 b1 ... b15`: stage the sixteen bytes, then `SETCID`. -/
def ldcid (bs : List Byte) : List HostAction :=
  writesFrom 0x000 (asValues bs) ++ [.cmd (encode .setcid)]

/-- `LDNAME "s"`, of at most 64 bytes: stage the bytes, then `SETNAME L`. -/
def ldname (bs : List Byte) : List HostAction :=
  writesFrom 0x000 (asValues bs) ++ [.cmd (encode (.setname (BitVec.ofNat 16 bs.length)))]

/-- `LDUNIV u, (v0, ..., v511)`. The last value is the slot count the host declares: 512, or the length
the universe value has when a wrong length is tested (`DataPacket`). -/
def lduniv (u : Half) (slots : List Byte) (count : Half) : List HostAction :=
  writesFrom 0x200 (asValues slots) ++ [.wr 0x040 u, .wr 0x041 count]

/-- `LDLIST (u0, ..., u_{n-1})`, of at most 512 numbers. -/
def ldlist (us : List Half) : List HostAction :=
  writesFrom 0x400 us ++ [.wr 0x042 (BitVec.ofNat 16 us.length)]

/-- `SetSourceName(s)`: a string longer than 64 bytes is announced by its length alone, which the
16-bit operand must be able to hold. -/
def setSourceName (bs : List Byte) : List HostAction :=
  if bs.length ≤ 64 then ldname bs
  else [.cmd (encode (.setname (BitVec.ofNat 16 bs.length)))]

/-- `SetPriority(p)`: `SETPRI (p mod 65536)`; a negative `p` becomes a large number (R96). -/
def setPriority (p : Int) : List HostAction := [.cmd (encode (.setpri (BitVec.ofInt 16 p)))]

/-- `DataPacket(s, q, o, universe)`: load the universe's slots (`SLOT` has 512 places; surplus slots have no
place), declaring the length the value has, then `DATA`. -/
def dataPacketCall (sync : Half) (seq opt : Byte) (number : Half) (slots : List Byte) :
    List HostAction :=
  lduniv number (slots.take 512) (BitVec.ofNat 16 slots.length)
    ++ [.cmd (encode (.data sync seq opt))]

/-- `SyncPacket(s, q)`. -/
def syncPacketCall (sync : Half) (seq : Byte) : List HostAction := [.cmd (encode (.sync sync seq))]

/-- `DiscoveryPacket(q, universes)`: a list of more than 512 numbers is announced by its length alone. -/
def discoveryPacketCall (seq : Byte) (us : List Half) : List HostAction :=
  (if us.length ≤ 512 then ldlist us else [.wr 0x042 (BitVec.ofNat 16 us.length)])
    ++ [.cmd (encode (.disc seq))]

end Sys2Proof.Machine
end

