-- ==== Sys2Proof/Safety.lean ====
section
/-! DEFINITION. The terms claims are stated in: what lies where in `OUT`, the reset values, and the invariant of
10_state.md R40. The hardware has no unsafe run to exclude: no step faults (60_exceptions.md R230). -/

namespace Sys2Proof.Machine

/-- `o[off .. off + len(bs) - 1] = bs`. -/
def bytesAt (o : Buf 8 1144) (off : Nat) (bs : List Byte) : Prop :=
  ∀ k < bs.length, o.get (off + k) = bs.getD k 0

/-- The packet the hardware holds: `OUT[0 .. OUTLEN-1]`, which with `STATUS` is the pair a claim observes
(00_scope.md R4, 43_packet_commands.md R206). -/
def heldPacket (s : State) : List Byte := s.out.cells.take s.outLen.toNat

/-- The encode commands: `DATA`, `SYNC`, `DISC` (00_scope.md section 7). -/
def isEncode : Instr → Bool
  | .data _ _ _ => true
  | .sync _ _ => true
  | .disc _ => true
  | .setcid => false
  | .setname _ => false
  | .setpri _ => false
  | .flen _ => false

/-- Every element of 10_state.md R41 has the value that rule gives it after `RESET`. -/
structure HasResetValues (s : State) : Prop where
  cid : ∀ i < 16, s.cid.get i = 0x00
  srcName : ∀ i < 64, s.srcName.get i = 0x00
  nameLen : s.nameLen = 0
  priority : s.priority = 100
  stg : ∀ i < 64, s.stg.get i = 0x00
  slot : ∀ i < 512, s.slot.get i = 0x00
  slotCnt : s.slotCnt = 0
  univ : s.univ = 0
  uList : ∀ i < 512, s.uList.get i = 0x0000
  uCnt : s.uCnt = 0
  page : s.page = 0
  lastPage : s.lastPage = 0
  out : ∀ i < 1144, s.out.get i = 0x00
  outLen : s.outLen = 0
  status : s.status = 0x00
  flRes : s.flRes = 0x0000

/-- The values `OUTLEN` takes (10_state.md R40 item 4): 0, 49, 638, or an even number from 120 to 1144. -/
def outLenLegal (n : Nat) : Prop :=
  n = 0 ∨ n = 49 ∨ n = 638 ∨ (n % 2 = 0 ∧ 120 ≤ n ∧ n ≤ 1144)

/-- The values `STATUS` takes (10_state.md R35, R40 item 6). -/
def statusValues : List Byte := [0x00, 0x01, 0x12, 0x22, 0x32, 0x42, 0x52, 0x62, 0x72]

/-- The first sixteen bytes of every packet (10_state.md R40 item 5). -/
def packetPreamble : List Byte :=
  [0x00, 0x10, 0x00, 0x00, 0x41, 0x53, 0x43, 0x2d, 0x45, 0x31, 0x2e, 0x31, 0x37, 0x00, 0x00, 0x00]

/-- The invariant of 10_state.md R40, but for its item 3, which is about the actions since reset. -/
structure State.Inv (s : State) : Prop where
  /-- Item 1. -/
  priority_le : s.priority.toNat ≤ 200
  /-- Item 2, the length. -/
  nameLen_le : s.nameLen.toNat ≤ 63
  /-- Item 2, the padding. -/
  name_padded : ∀ i < 64, s.nameLen.toNat ≤ i → s.srcName.get i = 0x00
  /-- Item 4. -/
  outLen_legal : outLenLegal s.outLen.toNat
  /-- Item 5, the preamble. -/
  packet_preamble : 0 < s.outLen.toNat → bytesAt s.out 0 packetPreamble
  /-- Item 5, the flags of the root field. -/
  packet_flags : 0 < s.outLen.toNat → s.out.get 16 &&& 0xF0 = 0x70
  /-- Item 5, the length in the root field. -/
  packet_length : 0 < s.outLen.toNat →
    (s.out.get 16 &&& 0x0F).toNat * 256 + (s.out.get 17).toNat = s.outLen.toNat - 16
  /-- Item 6. -/
  status_value : s.status ∈ statusValues
  /-- Item 7. -/
  flRes_value : s.flRes = 0x0000 ∨ s.flRes.extractLsb' 12 4 = 0x7

end Sys2Proof.Machine
end

