-- ==== Sys2Proof/Certificates/Slice0/Obligations.lean ====
section
/-! DEFINITION. The statements for the provers, from the numbered rules of spec/.

A statement about one command has the command's answer as its conclusion: `exec i s` ANSWERS a next
state `t`, and `t` is `s` with the fields named replaced, so that everything not named is unchanged. -/

open Sys2Proof Sys2Proof.Machine

/-! ## Encoding (30_encoding.md part A) -/

/-- Every command, with every operand value, is what its own command word decodes to. -/
def Obligations.DecodeOfEncode : Prop := ∀ i : Instr, decode (encode i) = .ok i

/-- A word that decodes to a command is that command's own word: no command has a second spelling. -/
def Obligations.EncodeOfDecode : Prop := ∀ (w : CmdWord) (i : Instr), decode w = .ok i → encode i = w

/-- 30_encoding.md R92: the opcode map; a word is the command of a row if and only if `w & mask = match`,
and at most one row matches. -/
def Obligations.OpcodeMapDecides : Prop :=
  ∀ w : CmdWord,
    opcodeMap.map (fun r => (r.mnemonic, r.bits, r.mask, r.build w)) =
      [ ("SETCID", 0x0100000000000000, 0xFFFFFFFFFFFFFFFF, .setcid),
        ("SETNAME", 0x0200000000000000, 0xFFFFFFFFFFFF0000, .setname (w.extractLsb' 0 16)),
        ("SETPRI", 0x0300000000000000, 0xFFFFFFFFFFFF0000, .setpri (w.extractLsb' 0 16)),
        ("DATA", 0x1000000000000000, 0xFF00000000FFFFFF,
          .data (w.extractLsb' 24 16) (w.extractLsb' 40 8) (w.extractLsb' 48 8)),
        ("SYNC", 0x1100000000000000, 0xFFFF000000FFFFFF,
          .sync (w.extractLsb' 24 16) (w.extractLsb' 40 8)),
        ("DISC", 0x1200000000000000, 0xFFFF00FFFFFFFFFF, .disc (w.extractLsb' 40 8)),
        ("FLEN", 0x2000000000000000, 0xFFFFFFFFFFFF0000, .flen (w.extractLsb' 0 16)) ]
    ∧ (∀ r ∈ opcodeMap, w &&& r.mask = r.bits →
        decode w = .ok (r.build w) ∧ ∀ r' ∈ opcodeMap, w &&& r'.mask = r'.bits → r'.mnemonic = r.mnemonic)
    ∧ ∀ i : Instr, decode w = .ok i → ∃ r ∈ opcodeMap, w &&& r.mask = r.bits ∧ i = r.build w

/-- 30_encoding.md R95: which words are illegal, and that an illegal word completes with `ERR = 1`,
`CODE = 7` and changes nothing else. -/
def Obligations.IllegalWords : Prop :=
  (∀ w : CmdWord, decode w = .error .illegal ↔
    (w.extractLsb' 56 8 ≠ 0x01#8 ∧ w.extractLsb' 56 8 ≠ 0x02#8 ∧ w.extractLsb' 56 8 ≠ 0x03#8
        ∧ w.extractLsb' 56 8 ≠ 0x10#8 ∧ w.extractLsb' 56 8 ≠ 0x11#8 ∧ w.extractLsb' 56 8 ≠ 0x12#8
        ∧ w.extractLsb' 56 8 ≠ 0x20#8)
      ∨ (w.extractLsb' 56 8 = 0x01#8 ∧ w.extractLsb' 0 56 ≠ 0#56)
      ∨ ((w.extractLsb' 56 8 = 0x02#8 ∨ w.extractLsb' 56 8 = 0x03#8 ∨ w.extractLsb' 56 8 = 0x20#8)
        ∧ w.extractLsb' 16 40 ≠ 0#40)
      ∨ (w.extractLsb' 56 8 = 0x10#8 ∧ w.extractLsb' 0 24 ≠ 0#24)
      ∨ (w.extractLsb' 56 8 = 0x11#8 ∧ (w.extractLsb' 0 24 ≠ 0#24 ∨ w.extractLsb' 48 8 ≠ 0#8))
      ∨ (w.extractLsb' 56 8 = 0x12#8
        ∧ (w.extractLsb' 0 24 ≠ 0#24 ∨ w.extractLsb' 48 8 ≠ 0#8 ∨ w.extractLsb' 24 16 ≠ 0#16)))
  ∧ ∀ (w : CmdWord) (c : ErrorCode) (s : State) (rest : List HostAction),
      decode w = .error c → s.host = .cmd w :: rest →
      step s = .next { s with host := rest, status := 0x72 }

/-- The decoder, written from the table's masks, accepts exactly the words that are well formed by the
formats' fields. -/
def Obligations.DecoderAcceptsWellFormedWords : Prop :=
  ∀ w : CmdWord, (∃ i, decode w = .ok i) ↔ wellFormedWord w = true

/-- Words written out from the spec's encodings and examples decode to what they stand for. -/
def Obligations.SpecExampleWordsDecode : Prop :=
  decode 0x0100000000000000 = .ok .setcid
    ∧ decode 0x020000000000003F = .ok (.setname 63)
    ∧ decode 0x0300000000000096 = .ok (.setpri 150)
    ∧ decode 0x1040010000000000 = .ok (.data 0 1 0x40)
    ∧ decode 0x11002A0007000000 = .ok (.sync 7 42)
    ∧ decode 0x1200990000000000 = .ok (.disc 0x99)
    ∧ decode 0x200000000000020B = .ok (.flen 523)
    ∧ decode 0x1180000000000000 = .error .illegal

/-! ## The step and the host's actions (20_memory.md, 70_reset_and_hazards.md) -/

/-- When the host's next action is a command word that decodes to `i`, the step is `exec` of `i` at the
state with that action taken off the model's port (log entry 1). -/
def Obligations.StepRunsDecodedCommand : Prop :=
  ∀ (s : State) (w : CmdWord) (rest : List HostAction) (i : Instr),
    s.host = .cmd w :: rest → decode w = .ok i → step s = exec i { s with host := rest }

/-- The host's actions are applied one a step in the order issued, each completes, and without one
nothing happens (20_memory.md R71, 60_exceptions.md R237). That the actions to come and the answers given
are lists of the state, and that an idle step is a step, is the model's choice (log entries 1 and 2). -/
def Obligations.ActionsApplyInOrder : Prop :=
  (∀ s : State, s.host = [] → step s = .next s)
  ∧ ∀ (s : State) (a : HostAction) (rest : List HostAction), s.host = a :: rest →
      ∃ t, step s = .next t ∧ t.host = rest
        ∧ ((∀ loc, a ≠ .rd loc) → t.returned = s.returned)
        ∧ ∀ loc, a = .rd loc → ∃ v, t.returned = v :: s.returned

/-- `RESET` gives every element its reset value, at any time; power-up is a `RESET`
(70_reset_and_hazards.md R260, 10_state.md R41). That it leaves the actions still pending and the answers
already given is the model's choice (log entry 2). -/
def Obligations.ResetGivesEveryResetValue : Prop :=
  HasResetValues State.reset
  ∧ ∀ (s : State) (rest : List HostAction), s.host = .reset :: rest →
      ∃ t, step s = .next t ∧ HasResetValues t ∧ t.host = rest ∧ t.returned = s.returned

/-- 20_memory.md R63: `WR loc, v`, by the location map of R61. -/
def Obligations.HostWriteStores : Prop :=
  ∀ (s : State) (loc : Loc) (v : Half) (rest : List HostAction), s.host = .wr loc v :: rest →
    ∃ t, step s = .next t
      ∧ (loc.toNat < 0x040 →
          t = { s with host := rest, stg := t.stg } ∧ t.stg.get loc.toNat = v.extractLsb' 0 8
            ∧ ∀ i < 64, i ≠ loc.toNat → t.stg.get i = s.stg.get i)
      ∧ (loc.toNat = 0x040 → t = { s with host := rest, univ := v })
      ∧ (loc.toNat = 0x041 → t = { s with host := rest, slotCnt := v })
      ∧ (loc.toNat = 0x042 → t = { s with host := rest, uCnt := v })
      ∧ (loc.toNat = 0x043 → t = { s with host := rest, page := v.extractLsb' 0 8 })
      ∧ (loc.toNat = 0x044 → t = { s with host := rest, lastPage := v.extractLsb' 0 8 })
      ∧ (0x200 ≤ loc.toNat ∧ loc.toNat ≤ 0x3FF →
          t = { s with host := rest, slot := t.slot }
            ∧ t.slot.get (loc.toNat - 0x200) = v.extractLsb' 0 8
            ∧ ∀ i < 512, i ≠ loc.toNat - 0x200 → t.slot.get i = s.slot.get i)
      ∧ (0x400 ≤ loc.toNat ∧ loc.toNat ≤ 0x5FF →
          t = { s with host := rest, uList := t.uList }
            ∧ t.uList.get (loc.toNat - 0x400) = v
            ∧ ∀ i < 512, i ≠ loc.toNat - 0x400 → t.uList.get i = s.uList.get i)
      ∧ ((0x045 ≤ loc.toNat ∧ loc.toNat ≤ 0x1FF) ∨ 0x600 ≤ loc.toNat →
          t = { s with host := rest })

/-- `RD loc` returns the location's value, by the location map of 20_memory.md R61, and changes no element
(R64). That the value returned becomes the head of the list `returned` is the model's choice (log entry
2). -/
def Obligations.HostReadReturns : Prop :=
  ∀ (s : State) (loc : Loc) (rest : List HostAction), s.host = .rd loc :: rest →
    ∃ v : Half, step s = .next { s with host := rest, returned := v :: s.returned }
      ∧ (loc.toNat < 0x040 → v = (s.stg.get loc.toNat).setWidth 16)
      ∧ (loc.toNat = 0x040 → v = s.univ)
      ∧ (loc.toNat = 0x041 → v = s.slotCnt)
      ∧ (loc.toNat = 0x042 → v = s.uCnt)
      ∧ (loc.toNat = 0x043 → v = s.page.setWidth 16)
      ∧ (loc.toNat = 0x044 → v = s.lastPage.setWidth 16)
      ∧ (loc.toNat = 0x048 → v = s.priority.setWidth 16)
      ∧ (loc.toNat = 0x049 → v = s.nameLen.setWidth 16)
      ∧ (loc.toNat = 0x04A → v = s.status.setWidth 16)
      ∧ (loc.toNat = 0x04B → v = s.outLen)
      ∧ (loc.toNat = 0x04C → v = s.flRes)
      ∧ (0x050 ≤ loc.toNat ∧ loc.toNat ≤ 0x05F → v = (s.cid.get (loc.toNat - 0x050)).setWidth 16)
      ∧ (0x080 ≤ loc.toNat ∧ loc.toNat ≤ 0x0BF → v = (s.srcName.get (loc.toNat - 0x080)).setWidth 16)
      ∧ (0x200 ≤ loc.toNat ∧ loc.toNat ≤ 0x3FF → v = (s.slot.get (loc.toNat - 0x200)).setWidth 16)
      ∧ (0x400 ≤ loc.toNat ∧ loc.toNat ≤ 0x5FF → v = s.uList.get (loc.toNat - 0x400))
      ∧ (0x800 ≤ loc.toNat ∧ loc.toNat ≤ 0xC77 → v = (s.out.get (loc.toNat - 0x800)).setWidth 16)
      ∧ ((0x045 ≤ loc.toNat ∧ loc.toNat ≤ 0x047) ∨ (0x04D ≤ loc.toNat ∧ loc.toNat ≤ 0x04F)
          ∨ (0x060 ≤ loc.toNat ∧ loc.toNat ≤ 0x07F) ∨ (0x0C0 ≤ loc.toNat ∧ loc.toNat ≤ 0x1FF)
          ∨ (0x600 ≤ loc.toNat ∧ loc.toNat ≤ 0x7FF) ∨ 0xC78 ≤ loc.toNat → v = 0x0000)

/-- A read after a write: the written location gives back what it stored (all of `v`, its low byte, or
its old value where the write is dropped), and every other location reads as before. -/
def Obligations.ReadAfterWrite : Prop :=
  ∀ (s : State) (loc : Loc) (v : Half),
    (loc.toNat < 0x040 ∨ loc.toNat = 0x043 ∨ loc.toNat = 0x044
        ∨ (0x200 ≤ loc.toNat ∧ loc.toNat ≤ 0x3FF) → readLoc loc (hostWrite loc v s) = v &&& 0x00FF)
      ∧ ((0x040 ≤ loc.toNat ∧ loc.toNat ≤ 0x042) ∨ (0x400 ≤ loc.toNat ∧ loc.toNat ≤ 0x5FF) →
          readLoc loc (hostWrite loc v s) = v)
      ∧ ((0x045 ≤ loc.toNat ∧ loc.toNat ≤ 0x1FF) ∨ 0x600 ≤ loc.toNat →
          readLoc loc (hostWrite loc v s) = readLoc loc s)
      ∧ ∀ loc' : Loc, loc' ≠ loc → readLoc loc' (hostWrite loc v s) = readLoc loc' s

/-! ## The length calculator (40_length_calculator.md) -/

/-- 40_length_calculator.md R130: `FL(len)`, and that every layer's length goes through it. -/
def Obligations.FlagsAndLengthValue : Prop :=
  (∀ len : Nat, 4095 < len → flagsAndLength len = .error .length)
  ∧ (∀ len : Nat, len ≤ 4095 → ∃ v : Half, flagsAndLength len = .ok v
      ∧ v = 0x7000#16 ||| BitVec.ofNat 16 len ∧ v.toNat = 0x7000 + len
      ∧ be16 v = [0x70#8 ||| BitVec.ofNat 8 (len / 256), BitVec.ofNat 8 len])
  ∧ ∀ (len : Nat) (vector : BitVec 32) (sync : Half) (seq opt : Byte) (s : State), 4095 < len →
      buildRoot vector len s = .error .length
        ∧ buildFramingData len sync seq opt s = .error .length
        ∧ buildFramingSync len sync seq = .error .length
        ∧ buildFramingDisc len s = .error .length
        ∧ buildDmp len s = .error .length
        ∧ buildUdl len s = .error .length

/-- The PDU lengths of each packet kind (40_length_calculator.md R133) and the length of the whole packet
(R134, which the spec derives from R132 and R133). -/
def Obligations.PduLengths : Prop :=
  (payLen .data = some 523 ∧ frameLen .data = 600 ∧ rootLen .data = 622 ∧ packetLen .data = 638)
  ∧ (payLen .sync = none ∧ frameLen .sync = 11 ∧ rootLen .sync = 33 ∧ packetLen .sync = 49)
  ∧ ∀ n : Nat, n ≤ 512 → payLen (.disc n) = some (8 + 2 * n) ∧ frameLen (.disc n) = 82 + 2 * n
      ∧ rootLen (.disc n) = 104 + 2 * n ∧ packetLen (.disc n) = 120 + 2 * n

/-- 40_length_calculator.md R135: `FLEN len`. -/
def Obligations.FlenCommand : Prop :=
  ∀ (len : Half) (s : State),
    decode (0x2000000000000000#64 ||| len.setWidth 64) = .ok (.flen len)
    ∧ (len.toNat ≤ 4095 →
        exec (.flen len) s = .next { s with flRes := 0x7000#16 ||| len, status := 0x01 })
    ∧ (4095 < len.toNat → exec (.flen len) s = .next { s with status := 0x62 })

/-! ## The configuration commands (41_config_commands.md) -/

/-- 41_config_commands.md R151: `SETCID`. -/
def Obligations.SetcidCommand : Prop :=
  (∀ w : CmdWord, decode w = .ok .setcid ↔ w = 0x0100000000000000)
  ∧ ∀ s : State, ∃ t, exec .setcid s = .next t
      ∧ t = { s with cid := t.cid, status := 0x01 }
      ∧ ∀ i < 16, t.cid.get i = s.stg.get i

/-- 41_config_commands.md R152: `SETNAME n`. -/
def Obligations.SetnameCommand : Prop :=
  ∀ (n : Half) (s : State),
    decode (0x0200000000000000#64 ||| n.setWidth 64) = .ok (.setname n)
    ∧ (1 ≤ n.toNat ∧ n.toNat ≤ 63 →
        ∃ t, exec (.setname n) s = .next t
          ∧ t = { s with srcName := t.srcName, nameLen := n.extractLsb' 0 8, status := 0x01 }
          ∧ t.nameLen.toNat = n.toNat
          ∧ ∀ i < 64, t.srcName.get i = if i < n.toNat then s.stg.get i else 0x00)
    ∧ (n.toNat = 0 ∨ 64 ≤ n.toNat → exec (.setname n) s = .next { s with status := 0x12 })

/-- 41_config_commands.md R153: `SETPRI p`. -/
def Obligations.SetpriCommand : Prop :=
  ∀ (p : Half) (s : State),
    decode (0x0300000000000000#64 ||| p.setWidth 64) = .ok (.setpri p)
    ∧ (p.toNat ≤ 200 →
        exec (.setpri p) s = .next { s with priority := p.extractLsb' 0 8, status := 0x01 }
          ∧ (p.extractLsb' 0 8 : Byte).toNat = p.toNat)
    ∧ (200 < p.toNat → exec (.setpri p) s = .next { s with status := 0x22 })

/-- The name the host staged is recovered through the accessors: `RD 0x049` and `RD 0x080 + i`
(41_config_commands.md R154). -/
def Obligations.NameIsReadBack : Prop :=
  ∀ (n : Half) (s t : State), 1 ≤ n.toNat → n.toNat ≤ 63 → exec (.setname n) s = .next t →
    readLoc 0x049 t = n
      ∧ (∀ i < n.toNat, readLoc (BitVec.ofNat 12 (0x080 + i)) t = (s.stg.get i).setWidth 16)
      ∧ ∀ i < 64, n.toNat ≤ i → readLoc (BitVec.ofNat 12 (0x080 + i)) t = 0x0000

/-! ## The packet commands (43_packet_commands.md, the layouts of 30_encoding.md part B) -/

/-- 43_packet_commands.md R201, the packet's offsets as 30_encoding.md R109 lists them: `DATA sync, seq, opt`. -/
def Obligations.DataCommand : Prop :=
  ∀ (sync : Half) (seq opt : Byte) (s : State),
    decode (0x1000000000000000#64 ||| opt.setWidth 64 <<< 48 ||| seq.setWidth 64 <<< 40
        ||| sync.setWidth 64 <<< 24) = .ok (.data sync seq opt)
    ∧ (s.slotCnt ≠ 512 → exec (.data sync seq opt) s = .next { s with status := 0x32, outLen := 0 })
    ∧ (s.slotCnt = 512 → s.univ.toNat < 1 ∨ 63999 < s.univ.toNat →
        exec (.data sync seq opt) s = .next { s with status := 0x42, outLen := 0 })
    ∧ (s.slotCnt = 512 → 1 ≤ s.univ.toNat → s.univ.toNat ≤ 63999 →
        ∃ t, exec (.data sync seq opt) s = .next t
          ∧ t = { s with out := t.out, outLen := 638, status := 0x01 }
          ∧ (∀ i < 1144, 638 ≤ i → t.out.get i = s.out.get i)
          ∧ bytesAt t.out 0 [0x00, 0x10] ∧ bytesAt t.out 2 [0x00, 0x00]
          ∧ bytesAt t.out 4 [0x41, 0x53, 0x43, 0x2d, 0x45, 0x31, 0x2e, 0x31, 0x37, 0x00, 0x00, 0x00]
          ∧ bytesAt t.out 16 [0x72, 0x6e] ∧ bytesAt t.out 18 [0x00, 0x00, 0x00, 0x04]
          ∧ (∀ i < 16, t.out.get (22 + i) = s.cid.get i)
          ∧ bytesAt t.out 38 [0x72, 0x58] ∧ bytesAt t.out 40 [0x00, 0x00, 0x00, 0x02]
          ∧ (∀ i < 64, t.out.get (44 + i) = s.srcName.get i)
          ∧ t.out.get 108 = s.priority
          ∧ bytesAt t.out 109 [sync.extractLsb' 8 8, sync.extractLsb' 0 8]
          ∧ t.out.get 111 = seq ∧ t.out.get 112 = opt &&& 0xE0
          ∧ bytesAt t.out 113 [s.univ.extractLsb' 8 8, s.univ.extractLsb' 0 8]
          ∧ bytesAt t.out 115 [0x72, 0x0b] ∧ t.out.get 117 = 0x02 ∧ t.out.get 118 = 0xa1
          ∧ bytesAt t.out 119 [0x00, 0x00] ∧ bytesAt t.out 121 [0x00, 0x01]
          ∧ bytesAt t.out 123 [0x02, 0x01] ∧ t.out.get 125 = 0x00
          ∧ ∀ i < 512, t.out.get (126 + i) = s.slot.get i)

/-- 43_packet_commands.md R202, the packet's offsets as 30_encoding.md R110 lists them: `SYNC sync, seq`. -/
def Obligations.SyncCommand : Prop :=
  ∀ (sync : Half) (seq : Byte) (s : State),
    decode (0x1100000000000000#64 ||| seq.setWidth 64 <<< 40 ||| sync.setWidth 64 <<< 24)
      = .ok (.sync sync seq)
    ∧ ∃ t, exec (.sync sync seq) s = .next t
      ∧ t = { s with out := t.out, outLen := 49, status := 0x01 }
      ∧ (∀ i < 1144, 49 ≤ i → t.out.get i = s.out.get i)
      ∧ bytesAt t.out 0 [0x00, 0x10, 0x00, 0x00, 0x41, 0x53, 0x43, 0x2d, 0x45, 0x31, 0x2e, 0x31,
          0x37, 0x00, 0x00, 0x00]
      ∧ bytesAt t.out 16 [0x70, 0x21] ∧ bytesAt t.out 18 [0x00, 0x00, 0x00, 0x08]
      ∧ (∀ i < 16, t.out.get (22 + i) = s.cid.get i)
      ∧ bytesAt t.out 38 [0x70, 0x0b] ∧ bytesAt t.out 40 [0x00, 0x00, 0x00, 0x01]
      ∧ t.out.get 44 = seq
      ∧ bytesAt t.out 45 [sync.extractLsb' 8 8, sync.extractLsb' 0 8]
      ∧ bytesAt t.out 47 [0x00, 0x00]

/-- 43_packet_commands.md R203, the packet's offsets as 30_encoding.md R111 lists them: `DISC seq`. `S` is the list
`ULIST[0..n-1]` in non-decreasing order. -/
def Obligations.DiscCommand : Prop :=
  ∀ (seq : Byte) (s : State) (n : Nat), n = s.uCnt.toNat →
    decode (0x1200000000000000#64 ||| seq.setWidth 64 <<< 40) = .ok (.disc seq)
    ∧ (512 < n → exec (.disc seq) s = .next { s with status := 0x52, outLen := 0 })
    ∧ (n ≤ 512 → (∃ i < n, (s.uList.get i).toNat < 1 ∨ 63999 < (s.uList.get i).toNat) →
        exec (.disc seq) s = .next { s with status := 0x42, outLen := 0 })
    ∧ (n ≤ 512 → (∀ i < n, 1 ≤ (s.uList.get i).toNat ∧ (s.uList.get i).toNat ≤ 63999) →
        ∃ (t : State) (S : List Half), exec (.disc seq) s = .next t
          ∧ t = { s with out := t.out, outLen := BitVec.ofNat 16 (120 + 2 * n), status := 0x01 }
          ∧ (∀ i < 1144, 120 + 2 * n ≤ i → t.out.get i = s.out.get i)
          ∧ bytesAt t.out 0 [0x00, 0x10, 0x00, 0x00, 0x41, 0x53, 0x43, 0x2d, 0x45, 0x31, 0x2e, 0x31,
              0x37, 0x00, 0x00, 0x00]
          ∧ (t.out.get 16).toNat * 256 + (t.out.get 17).toNat = 0x7000 + (104 + 2 * n)
          ∧ bytesAt t.out 18 [0x00, 0x00, 0x00, 0x08]
          ∧ (∀ i < 16, t.out.get (22 + i) = s.cid.get i)
          ∧ (t.out.get 38).toNat * 256 + (t.out.get 39).toNat = 0x7000 + (82 + 2 * n)
          ∧ bytesAt t.out 40 [0x00, 0x00, 0x00, 0x02]
          ∧ (∀ i < 64, t.out.get (44 + i) = s.srcName.get i)
          ∧ bytesAt t.out 108 [0x00, 0x00, 0x00, 0x00]
          ∧ (t.out.get 112).toNat * 256 + (t.out.get 113).toNat = 0x7000 + (8 + 2 * n)
          ∧ bytesAt t.out 114 [0x00, 0x00, 0x00, 0x01]
          ∧ t.out.get 118 = s.page ∧ t.out.get 119 = s.lastPage
          ∧ S.Perm ((List.range n).map s.uList.get)
          ∧ (∀ j k, j ≤ k → k < n → (S.getD j 0).toNat ≤ (S.getD k 0).toNat)
          ∧ ∀ k < n, t.out.get (120 + 2 * k) = (S.getD k 0).extractLsb' 8 8
              ∧ t.out.get (121 + 2 * k) = (S.getD k 0).extractLsb' 0 8)

/-- 40_length_calculator.md R131, its three consequences: after a successful encode command every
length field counts from its own layer's start to the end of the packet. -/
def Obligations.LengthFieldsCountToPacketEnd : Prop :=
  ∀ (i : Instr) (s t : State), isEncode i = true → exec i s = .next t → t.status = 0x01 →
    (t.out.get 16 &&& 0x0F).toNat * 256 + (t.out.get 17).toNat + 16 = t.outLen.toNat
      ∧ (t.out.get 38 &&& 0x0F).toNat * 256 + (t.out.get 39).toNat + 38 = t.outLen.toNat
      ∧ (∀ sync seq opt, i = .data sync seq opt →
          (t.out.get 115 &&& 0x0F).toNat * 256 + (t.out.get 116).toNat + 115 = t.outLen.toNat)
      ∧ ∀ seq, i = .disc seq →
          (t.out.get 112 &&& 0x0F).toNat * 256 + (t.out.get 113).toNat + 112 = t.outLen.toNat

/-- 30_encoding.md R112: the reserved wire fields are zero and the flags nibble is 0x7, whatever the
operands. -/
def Obligations.ReservedWireFieldsAreZero : Prop :=
  ∀ (i : Instr) (s t : State), isEncode i = true → exec i s = .next t → t.status = 0x01 →
    t.out.get 16 &&& 0xF0 = 0x70 ∧ t.out.get 38 &&& 0xF0 = 0x70
      ∧ (∀ sync seq opt, i = .data sync seq opt →
          t.out.get 112 &&& 0x1F = 0x00 ∧ t.out.get 115 &&& 0xF0 = 0x70)
      ∧ (∀ sync seq, i = .sync sync seq → t.out.get 47 = 0x00 ∧ t.out.get 48 = 0x00)
      ∧ ∀ seq, i = .disc seq →
          (∀ k < 4, t.out.get (108 + k) = 0x00) ∧ t.out.get 112 &&& 0xF0 = 0x70

/-- The packet kind is read from the root vector and the framing vector, and no other combination is
produced: 30_encoding.md R113, which the spec derives from R108. -/
def Obligations.PacketKindFromVectors : Prop :=
  ∀ (i : Instr) (s t : State), isEncode i = true → exec i s = .next t → t.status = 0x01 →
    (bytesAt t.out 18 [0x00, 0x00, 0x00, 0x04] ↔ ∃ sync seq opt, i = .data sync seq opt)
      ∧ (bytesAt t.out 18 [0x00, 0x00, 0x00, 0x08] ∧ bytesAt t.out 40 [0x00, 0x00, 0x00, 0x01]
          ↔ ∃ sync seq, i = .sync sync seq)
      ∧ (bytesAt t.out 18 [0x00, 0x00, 0x00, 0x08] ∧ bytesAt t.out 40 [0x00, 0x00, 0x00, 0x02]
          ↔ ∃ seq, i = .disc seq)

/-- 43_packet_commands.md R205: an encode command's outcome depends on the elements it reads, and on
nothing else. -/
def Obligations.EncodeOutcomeDependsOnWhatItReads : Prop :=
  ∀ (i : Instr) (s₁ s₂ t₁ t₂ : State),
    s₁.cid = s₂.cid →
    ((∃ sync seq opt, i = .data sync seq opt) ∧ s₁.slotCnt = s₂.slotCnt ∧ s₁.univ = s₂.univ
        ∧ s₁.slot = s₂.slot ∧ s₁.srcName = s₂.srcName ∧ s₁.priority = s₂.priority)
      ∨ (∃ sync seq, i = .sync sync seq)
      ∨ ((∃ seq, i = .disc seq) ∧ s₁.uCnt = s₂.uCnt
        ∧ (∀ k < s₁.uCnt.toNat, s₁.uList.get k = s₂.uList.get k)
        ∧ s₁.page = s₂.page ∧ s₁.lastPage = s₂.lastPage ∧ s₁.srcName = s₂.srcName) →
    exec i s₁ = .next t₁ → exec i s₂ = .next t₂ →
    t₁.status = t₂.status ∧ t₁.outLen = t₂.outLen
      ∧ ∀ k < t₁.outLen.toNat, t₁.out.get k = t₂.out.get k

/-! ## The notation: pseudo-instructions and the source's calls (30_encoding.md R98) -/

/-- The loading pseudo-instructions, run as the host actions they expand to, leave what they load. -/
def Obligations.PseudoInstructionsLoad : Prop :=
  ∀ s : State,
    (∀ bs : List Byte, bs.length = 16 →
      ∃ t : State, core.run 17 { s with host := ldcid bs } = .next t
        ∧ t = { s with host := [], stg := t.stg, cid := t.cid, status := 0x01 }
        ∧ (∀ i < 16, t.cid.get i = bs.getD i 0)
        ∧ ∀ i < 64, t.stg.get i = if i < 16 then bs.getD i 0 else s.stg.get i)
    ∧ (∀ bs : List Byte, bs.length ≤ 64 →
      ∃ t : State, core.run (bs.length + 1) { s with host := ldname bs } = .next t
        ∧ (∀ i < 64, t.stg.get i = if i < bs.length then bs.getD i 0 else s.stg.get i)
        ∧ (1 ≤ bs.length ∧ bs.length ≤ 63 →
          t = { s with host := [], stg := t.stg, srcName := t.srcName, nameLen := t.nameLen,
                       status := 0x01 }
            ∧ t.nameLen.toNat = bs.length ∧ ∀ i < 64, t.srcName.get i = bs.getD i 0)
        ∧ (bs.length = 0 ∨ bs.length = 64 →
          t = { s with host := [], stg := t.stg, status := 0x12 }))
    ∧ (∀ (u count : Half) (slots : List Byte), slots.length ≤ 512 →
      ∃ t : State, core.run (slots.length + 2) { s with host := lduniv u slots count } = .next t
        ∧ t = { s with host := [], slot := t.slot, univ := u, slotCnt := count }
        ∧ ∀ i < 512, t.slot.get i = if i < slots.length then slots.getD i 0 else s.slot.get i)
    ∧ ∀ us : List Half, us.length ≤ 512 →
      ∃ t : State, core.run (us.length + 1) { s with host := ldlist us } = .next t
        ∧ t = { s with host := [], uList := t.uList, uCnt := t.uCnt }
        ∧ t.uCnt.toNat = us.length
        ∧ ∀ i < 512, t.uList.get i = if i < us.length then us.getD i 0 else s.uList.get i

/-- The source's five calls, run as the host actions they expand to, answer as the source says: which
arguments succeed, with what result, and which error the others give. A length is one the 16-bit
register or operand that announces it can hold, and slots past the 512 places are announced and not
loaded (log entry 9). -/
def Obligations.SourceCallsAnswer : Prop :=
  ∀ s : State,
    (∀ bs : List Byte, bs.length < 65536 →
      ∃ t : State, core.run (setSourceName bs).length { s with host := setSourceName bs } = .next t
        ∧ (1 ≤ bs.length ∧ bs.length ≤ 63 →
          t.status = 0x01 ∧ t.nameLen.toNat = bs.length ∧ ∀ i < 64, t.srcName.get i = bs.getD i 0)
        ∧ (bs.length = 0 ∨ 64 ≤ bs.length →
          t.status = 0x12 ∧ t.nameLen = s.nameLen ∧ t.srcName = s.srcName))
    ∧ (∀ p : Int, -32768 ≤ p → p < 65536 →
      ∃ t : State, core.run 1 { s with host := setPriority p } = .next t
        ∧ (0 ≤ p ∧ p ≤ 200 → t.status = 0x01 ∧ (t.priority.toNat : Int) = p)
        ∧ (p < 0 ∨ 200 < p → t.status = 0x22 ∧ t.priority = s.priority))
    ∧ (∀ (sync : Half) (seq opt : Byte) (u : Half) (slots : List Byte), slots.length < 65536 →
      ∃ t : State, core.run (dataPacketCall sync seq opt u slots).length
          { s with host := dataPacketCall sync seq opt u slots } = .next t
        ∧ (slots.length ≠ 512 → t.status = 0x32 ∧ heldPacket t = [] ∧ t.out = s.out)
        ∧ (slots.length = 512 → 1 ≤ u.toNat ∧ u.toNat ≤ 63999 →
          t.status = 0x01 ∧ t.outLen = 638
            ∧ bytesAt t.out 109 [sync.extractLsb' 8 8, sync.extractLsb' 0 8, seq, opt &&& 0xE0,
                u.extractLsb' 8 8, u.extractLsb' 0 8]
            ∧ ∀ i < 512, t.out.get (126 + i) = slots.getD i 0)
        ∧ (slots.length = 512 → u.toNat = 0 ∨ 63999 < u.toNat →
          t.status = 0x42 ∧ heldPacket t = [] ∧ t.out = s.out))
    ∧ (∀ (sync : Half) (seq : Byte),
      ∃ t : State, core.run 1 { s with host := syncPacketCall sync seq } = .next t
        ∧ t.status = 0x01 ∧ t.outLen = 49
        ∧ bytesAt t.out 44 [seq, sync.extractLsb' 8 8, sync.extractLsb' 0 8])
    ∧ ∀ (seq : Byte) (us : List Half), us.length < 65536 →
      ∃ t : State, core.run (discoveryPacketCall seq us).length
          { s with host := discoveryPacketCall seq us } = .next t
        ∧ (512 < us.length → t.status = 0x52 ∧ heldPacket t = [] ∧ t.out = s.out)
        ∧ (us.length ≤ 512 → (∃ u ∈ us, u.toNat = 0 ∨ 63999 < u.toNat) →
          t.status = 0x42 ∧ heldPacket t = [] ∧ t.out = s.out)
        ∧ (us.length ≤ 512 → (∀ u ∈ us, 1 ≤ u.toNat ∧ u.toNat ≤ 63999) →
          t.status = 0x01 ∧ t.outLen.toNat = 120 + 2 * us.length
            ∧ ∃ S : List Half, S.Perm us ∧ S.Pairwise (fun a b => a.toNat ≤ b.toNat)
              ∧ ∀ k < us.length, t.out.get (120 + 2 * k) = (S.getD k 0).extractLsb' 8 8
                ∧ t.out.get (121 + 2 * k) = (S.getD k 0).extractLsb' 0 8)

/-! ## Completion and errors (60_exceptions.md) -/

/-- 60_exceptions.md R230: every command on every state completes, with a success or with one of the
`ValidationError` codes; and so does every step. -/
def Obligations.EveryCommandCompletes : Prop :=
  (∀ (i : Instr) (s : State), ∃ t, exec i s = .next t
    ∧ (t.status = 0x01
      ∨ t.status ∈ ([0x12, 0x22, 0x32, 0x42, 0x52, 0x62] : List Byte)))
  ∧ ∀ s : State, ∃ t, step s = .next t

/-- Which command can end in which error, complete: each of the errors listed is reached from some state
with some operands, and no other is (60_exceptions.md R232, which the spec derives from R231). -/
def Obligations.ErrorsOfEachCommand : Prop :=
  (∀ s, ∃ t, exec .setcid s = .next t ∧ t.status = 0x01)
  ∧ (∀ n s, ∃ t, exec (.setname n) s = .next t ∧ (t.status = 0x01 ∨ t.status = 0x12))
  ∧ (∀ p s, ∃ t, exec (.setpri p) s = .next t ∧ (t.status = 0x01 ∨ t.status = 0x22))
  ∧ (∀ a b c s, ∃ t, exec (.data a b c) s = .next t
      ∧ (t.status = 0x01 ∨ t.status = 0x32 ∨ t.status = 0x42))
  ∧ (∀ a b s, ∃ t, exec (.sync a b) s = .next t ∧ t.status = 0x01)
  ∧ (∀ a s, ∃ t, exec (.disc a) s = .next t
      ∧ (t.status = 0x01 ∨ t.status = 0x52 ∨ t.status = 0x42))
  ∧ (∀ len s, ∃ t, exec (.flen len) s = .next t ∧ (t.status = 0x01 ∨ t.status = 0x62))
  ∧ (∀ (w : CmdWord) (s : State) (c : ErrorCode) (rest : List HostAction), s.host = .cmd w :: rest →
      decode w = .error c → ∃ t, step s = .next t ∧ t.status = 0x72)
  ∧ (∃ n s t, exec (.setname n) s = .next t ∧ t.status = 0x12)
  ∧ (∃ p s t, exec (.setpri p) s = .next t ∧ t.status = 0x22)
  ∧ (∃ a b c s t, exec (.data a b c) s = .next t ∧ t.status = 0x32)
  ∧ (∃ a b c s t, exec (.data a b c) s = .next t ∧ t.status = 0x42)
  ∧ (∃ a s t, exec (.disc a) s = .next t ∧ t.status = 0x52)
  ∧ (∃ a s t, exec (.disc a) s = .next t ∧ t.status = 0x42)
  ∧ (∃ len s t, exec (.flen len) s = .next t ∧ t.status = 0x62)
  ∧ (∀ (s t : State) (rest : List HostAction), step s = .next t →
      ((∃ loc v, s.host = .wr loc v :: rest) ∨ ∃ loc, s.host = .rd loc :: rest) →
      t.status = s.status)
  ∧ ∀ (s t : State) (rest : List HostAction), step s = .next t → s.host = .reset :: rest →
      t.status = 0x00

/-- 60_exceptions.md R233: a command that ends with a `ValidationError` of code `c` changes `STATUS`, and
`OUTLEN` if it is a `DATA` or a `DISC`, and nothing else. -/
def Obligations.FailedCommandChangesOnlyStatusAndOutlen : Prop :=
  ∀ (s t : State) (w : CmdWord) (rest : List HostAction), s.host = .cmd w :: rest →
    step s = .next t → t.status.getLsbD 1 = true →
    ∃ (c : BitVec 4) (n : Half), 1 ≤ c.toNat ∧ c.toNat ≤ 7
      ∧ t = { s with host := rest, status := c.setWidth 8 <<< 4 ||| 0x02, outLen := n }
      ∧ ((∃ sync seq opt, decode w = .ok (.data sync seq opt)) ∨ (∃ seq, decode w = .ok (.disc seq)) →
          n = 0)
      ∧ (¬ ((∃ sync seq opt, decode w = .ok (.data sync seq opt)) ∨ ∃ seq, decode w = .ok (.disc seq)) →
          n = s.outLen)

/-- 10_state.md R35: `STATUS` is written whole by every command and by nothing else but `RESET`, and no
command reads it. -/
def Obligations.StatusRule : Prop :=
  (∀ (s t : State) (w : CmdWord) (rest : List HostAction), s.host = .cmd w :: rest →
    step s = .next t →
      (t.status.getLsbD 0 ^^ t.status.getLsbD 1) = true ∧ t.status.extractLsb' 2 2 = 0#2
        ∧ (t.status.getLsbD 1 = false → t.status.extractLsb' 4 4 = 0#4)
        ∧ (t.status.getLsbD 1 = true → t.status.extractLsb' 4 4 ≠ 0#4)
        ∧ t.status ∈ ([0x01, 0x12, 0x22, 0x32, 0x42, 0x52, 0x62, 0x72] : List Byte))
  ∧ (∀ (s t : State) (rest : List HostAction), step s = .next t →
      (s.host = [] ∨ (∃ loc v, s.host = .wr loc v :: rest) ∨ ∃ loc, s.host = .rd loc :: rest) →
      t.status = s.status)
  ∧ (∀ (s t : State) (rest : List HostAction), step s = .next t → s.host = .reset :: rest →
      t.status = 0x00)
  ∧ ∀ (i : Instr) (s : State) (st : Byte), exec i { s with status := st } = exec i s

/-! ## What each group of state is changed by (10_state.md R42) -/

/-- 43_packet_commands.md R204: no command writes an operand element, and no encode command writes the
identity. -/
def Obligations.InputsAreNeverModified : Prop :=
  ∀ (i : Instr) (s : State), ∃ t, exec i s = .next t
    ∧ t.stg = s.stg ∧ t.slot = s.slot ∧ t.slotCnt = s.slotCnt ∧ t.univ = s.univ
    ∧ t.uList = s.uList ∧ t.uCnt = s.uCnt ∧ t.page = s.page ∧ t.lastPage = s.lastPage
    ∧ t.host = s.host ∧ t.returned = s.returned
    ∧ (isEncode i = true → t.cid = s.cid ∧ t.srcName = s.srcName ∧ t.nameLen = s.nameLen
        ∧ t.priority = s.priority ∧ t.flRes = s.flRes)

/-- Configuration commands touch neither the packet, nor the other results, nor an operand; a failed one
keeps the identity whole (41_config_commands.md R150). -/
def Obligations.ConfigurationCommandFrame : Prop :=
  ∀ (i : Instr) (s : State), (i = .setcid ∨ (∃ n, i = .setname n) ∨ ∃ p, i = .setpri p) →
    ∃ t, exec i s = .next t
      ∧ t = { s with cid := t.cid, srcName := t.srcName, nameLen := t.nameLen, priority := t.priority,
                     status := t.status }
      ∧ (t.status ≠ 0x01 → t = { s with status := t.status })

/-- 10_state.md R33, R42: `OUT` is written by a successful encode command from index 0 to `OUTLEN - 1`,
by `RESET`, and by nothing else. -/
def Obligations.OutIsWrittenOnlyBelowOutlen : Prop :=
  (∀ (i : Instr) (s t : State), exec i s = .next t →
    (isEncode i = false ∨ t.status ≠ 0x01 → t.out = s.out)
      ∧ ∀ k < 1144, isEncode i = true → t.outLen.toNat ≤ k → t.out.get k = s.out.get k)
  ∧ ∀ (s t : State), step s = .next t → t.out ≠ s.out →
      ∃ rest, s.host = .reset :: rest
        ∨ ∃ w i, s.host = .cmd w :: rest ∧ decode w = .ok i ∧ isEncode i = true ∧ t.status = 0x01

/-- 10_state.md R34: what each command leaves in `OUTLEN`. -/
def Obligations.OutlenRule : Prop :=
  (∀ sync seq opt s, ∃ t, exec (.data sync seq opt) s = .next t
      ∧ t.outLen = if t.status = 0x01 then 638 else 0)
  ∧ (∀ sync seq s, ∃ t, exec (.sync sync seq) s = .next t ∧ t.outLen = 49)
  ∧ (∀ seq s, ∃ t, exec (.disc seq) s = .next t
      ∧ t.outLen.toNat = if t.status = 0x01 then 120 + 2 * s.uCnt.toNat else 0)
  ∧ (∀ i s, isEncode i = false → ∃ t, exec i s = .next t ∧ t.outLen = s.outLen)
  ∧ (∀ (s : State) (w : CmdWord) (c : ErrorCode) (rest : List HostAction), s.host = .cmd w :: rest →
      decode w = .error c → ∃ t, step s = .next t ∧ t.outLen = s.outLen)
  ∧ (∀ (s : State) (loc : Loc) (v : Half) (rest : List HostAction), s.host = .wr loc v :: rest →
      ∃ t, step s = .next t ∧ t.outLen = s.outLen)
  ∧ State.reset.outLen = 0

/-- 10_state.md R36: `FLRES` is written by a successful `FLEN` and by no other command, and not by the
host. -/
def Obligations.FlresRule : Prop :=
  (∀ len s, ∃ t, exec (.flen len) s = .next t
      ∧ t.flRes = if len.toNat ≤ 4095 then 0x7000#16 ||| len else s.flRes)
  ∧ (∀ i s, (∀ len, i ≠ .flen len) → ∃ t, exec i s = .next t ∧ t.flRes = s.flRes)
  ∧ (∀ (s : State) (w : CmdWord) (c : ErrorCode) (rest : List HostAction), s.host = .cmd w :: rest →
      decode w = .error c → ∃ t, step s = .next t ∧ t.flRes = s.flRes)
  ∧ (∀ (s : State) (loc : Loc) (v : Half) (rest : List HostAction), s.host = .wr loc v :: rest →
      ∃ t, step s = .next t ∧ t.flRes = s.flRes)
  ∧ State.reset.flRes = 0x0000
  ∧ ∀ len s t, exec (.flen len) s = .next t → t.status = 0x01 → t.flRes ≠ 0x0000

/-- Whole-machine rule: each part of the SourceIdentity changes only in a step that runs its own
configuration command, successfully, or a `RESET` (41_config_commands.md R155, 10_state.md R42). -/
def Obligations.IdentityChangesOnlyByItsOwnCommand : Prop :=
  ∀ (s t : State), step s = .next t →
    (t.cid ≠ s.cid → ∃ rest, s.host = .reset :: rest
      ∨ ∃ w, s.host = .cmd w :: rest ∧ decode w = .ok .setcid)
    ∧ (t.srcName ≠ s.srcName ∨ t.nameLen ≠ s.nameLen → ∃ rest, s.host = .reset :: rest
      ∨ ∃ w n, s.host = .cmd w :: rest ∧ decode w = .ok (.setname n) ∧ t.status = 0x01)
    ∧ (t.priority ≠ s.priority → ∃ rest, s.host = .reset :: rest
      ∨ ∃ w p, s.host = .cmd w :: rest ∧ decode w = .ok (.setpri p) ∧ t.status = 0x01)

/-- Every command is idempotent: issued again from the state it left, it leaves that state (so a failure
fails again identically, and an encode gives the same bytes). -/
def Obligations.CommandsAreIdempotent : Prop :=
  ∀ (i : Instr) (s : State), ∃ t, exec i s = .next t ∧ exec i t = .next t

/-! ## The invariant (10_state.md R40) -/

/-- The state right after reset has the invariant. -/
def Obligations.ResetHasInvariant : Prop := State.reset.Inv

/-- Every step keeps the invariant, from every state that has it. -/
def Obligations.StepKeepsInvariant : Prop :=
  ∀ s t : State, s.Inv → step s = .next t → t.Inv

/-- Every state reached from reset by host actions has the invariant, and `NAMELEN` is 0 in it only if no
`SETNAME` has succeeded since the last `RESET` (10_state.md R40, which the spec derives from its other
rules). The actions are those pending on the model's port (log entry 1). -/
def Obligations.ReachableStates : Prop :=
  ∀ actions : List HostAction, ∃ t,
    core.run actions.length { State.reset with host := actions } = .next t
      ∧ t.Inv
      ∧ (t.nameLen = 0 → ∀ (before after : List HostAction) (w : CmdWord) (n : Half),
          actions = before ++ .cmd w :: after → .reset ∉ after → decode w = .ok (.setname n) →
          n.toNat = 0 ∨ 63 < n.toNat)

/-- The result of each command right after reset (70_reset_and_hazards.md R261, which the spec derives
from R260 and the commands' rules). -/
def Obligations.CommandsRightAfterReset : Prop :=
  (∀ sync seq, ∃ t, exec (.sync sync seq) State.reset = .next t ∧ t.status = 0x01 ∧ t.outLen = 49
      ∧ ∀ i < 16, t.out.get (22 + i) = 0x00)
  ∧ (∀ sync seq opt, ∃ t, exec (.data sync seq opt) State.reset = .next t ∧ t.status = 0x32
      ∧ t.outLen = 0)
  ∧ (∀ seq, ∃ t, exec (.disc seq) State.reset = .next t ∧ t.status = 0x01 ∧ t.outLen = 120
      ∧ (∀ i < 64, t.out.get (44 + i) = 0x00) ∧ ∀ i < 16, t.out.get (22 + i) = 0x00)
  ∧ (∀ n : Half, 1 ≤ n.toNat → n.toNat ≤ 63 → ∃ t, exec (.setname n) State.reset = .next t
      ∧ t.status = 0x01 ∧ t.nameLen.toNat = n.toNat ∧ ∀ i < 64, t.srcName.get i = 0x00)
  ∧ (∀ n : Half, n.toNat = 0 ∨ 63 < n.toNat →
      exec (.setname n) State.reset = .next { State.reset with status := 0x12 })
  ∧ (∃ t, exec .setcid State.reset = .next t ∧ t.status = 0x01 ∧ ∀ i < 16, t.cid.get i = 0x00)
  ∧ (∀ p : Half, ∃ t, exec (.setpri p) State.reset = .next t
      ∧ if p.toNat ≤ 200 then t.status = 0x01 ∧ t.priority.toNat = p.toNat
        else t.status = 0x22 ∧ t.priority = 100)
  ∧ ∀ len : Half, ∃ t, exec (.flen len) State.reset = .next t
      ∧ if len.toNat ≤ 4095 then t.status = 0x01 ∧ t.flRes.toNat = 0x7000 + len.toNat
        else t.status = 0x62 ∧ t.flRes = 0x0000
end

