-- ==== Sys2Proof/Laws/Buffer.lean ====
section
/-! SUPPORT. The laws of a buffer: what a read gives after each way of making or writing one. -/

namespace Sys2Proof.Machine

variable {w n : Nat}

@[simp] theorem Buf.length_cells (b : Buf w n) : b.cells.length = n := b.size

theorem Buf.get_eq_getElem (b : Buf w n) {i : Nat} (h : i < n) :
    b.get i = b.cells[i]'(by rw [b.size]; exact h) := by
  simp [Buf.get, h]

/-- Two buffers with the same element at every index are equal. -/
theorem Buf.ext_get {a b : Buf w n} (h : ∀ i < n, a.get i = b.get i) : a = b := by
  obtain ⟨as, ha⟩ := a
  obtain ⟨bs, hb⟩ := b
  have : as = bs := by
    apply List.ext_getElem (ha.trans hb.symm)
    intro i h₁ h₂
    simpa [Buf.get, h₁, h₂] using h i (ha ▸ h₁)
  subst this
  rfl

@[simp] theorem Buf.get_zero (i : Nat) : (Buf.zero w n).get i = 0 := by
  simp only [Buf.get, Buf.zero, List.getD_eq_getElem?_getD, List.getElem?_replicate]
  split <;> rfl

theorem Buf.get_set_self (b : Buf w n) {i : Nat} (h : i < n) (v : BitVec w) :
    (b.set i v).get i = v := by
  simp [Buf.get, Buf.set, h]

theorem Buf.get_set_ne (b : Buf w n) {i j : Nat} (h : j ≠ i) (v : BitVec w) :
    (b.set i v).get j = b.get j := by
  simp [Buf.get, Buf.set, List.getElem?_set_ne h.symm]

theorem Buf.get_build {f : Nat → BitVec w} {i : Nat} (h : i < n) :
    (Buf.build f : Buf w n).get i = f i := by
  simp [Buf.get, Buf.build, h]

theorem Buf.get_overwrite (b : Buf w n) (bs : List (BitVec w)) {i : Nat} (h : i < n) :
    (b.overwrite bs).get i = if i < bs.length then bs.getD i 0 else b.get i := by
  simp only [Buf.get, Buf.overwrite, List.getD_eq_getElem?_getD, List.getElem?_take_of_lt h,
    List.getElem?_append]
  split
  · rfl
  · rw [List.getElem?_drop]
    congr 2
    omega

/-- A list written from index 0 on reads back at its indexes. -/
theorem Buf.get_overwrite_lt (b : Buf w n) {bs : List (BitVec w)} {i : Nat} (h : i < bs.length)
    (hn : bs.length ≤ n) : (b.overwrite bs).get i = bs.getD i 0 := by
  rw [Buf.get_overwrite b bs (by omega), if_pos h]

/-- Every element past the written list is kept. -/
theorem Buf.get_overwrite_ge (b : Buf w n) {bs : List (BitVec w)} {i : Nat} (h : bs.length ≤ i)
    (hn : i < n) : (b.overwrite bs).get i = b.get i := by
  rw [Buf.get_overwrite b bs hn, if_neg (by omega)]

/-- Overwriting twice with lists of the same bytes is overwriting once. -/
theorem Buf.overwrite_overwrite (b : Buf w n) (bs : List (BitVec w)) :
    (b.overwrite bs).overwrite bs = b.overwrite bs := by
  refine Buf.ext_get fun i hi => ?_
  simp only [Buf.get_overwrite _ _ hi]
  split <;> rfl

end Sys2Proof.Machine
end

