-- ==== Sys2Proof/Laws/Encoding.lean ====
section
/-! SUPPORT. The laws of the decoder: what it can answer, and how a masked equation reads bit by bit. -/

namespace Sys2Proof

/-- An accepted word matches a row, and the command is that row's. -/
theorem decode_ok_row {w : CmdWord} {i : Instr} (h : decode w = .ok i) :
    ∃ r ∈ opcodeMap, w &&& r.mask = r.bits ∧ i = r.build w := by
  unfold decode at h
  cases hf : opcodeMap.find? (matchesRow w) with
  | none => simp [hf] at h
  | some r =>
    have h1 := List.find?_some hf
    simp only [matchesRow, beq_iff_eq] at h1
    simp only [hf, Except.ok.injEq] at h
    exact ⟨r, List.mem_of_find?_eq_some hf, h1, h.symm⟩

/-- A refused word matches no row, and the only refusal is `E_ILLEGAL`. -/
theorem decode_error_iff (w : CmdWord) (c : ErrorCode) :
    decode w = .error c ↔ c = .illegal ∧ ∀ r ∈ opcodeMap, w &&& r.mask ≠ r.bits := by
  unfold decode
  cases hf : opcodeMap.find? (matchesRow w) with
  | none =>
    have h := List.find?_eq_none.mp hf
    simp only [matchesRow, beq_iff_eq] at h
    simp only [Except.error.injEq]
    exact ⟨fun e => ⟨e.symm, h⟩, fun e => e.1.symm⟩
  | some r =>
    have h1 := List.find?_some hf
    simp only [matchesRow, beq_iff_eq] at h1
    simp only [reduceCtorEq, false_iff, not_and]
    exact fun _ hn => hn r (List.mem_of_find?_eq_some hf) h1

/-- A field of a word, bit by bit. -/
theorem extractLsb'_eq_iff (w : CmdWord) (k n : Nat) (v : BitVec n) :
    w.extractLsb' k n = v ↔ ∀ i < n, w.getLsbD (k + i) = v.getLsbD i := by
  constructor
  · rintro rfl i hi
    simp [hi]
  · intro h
    apply BitVec.eq_of_getLsbD_eq
    intro i hi
    simp [hi, h i hi]

/-- A masked equation, bit by bit. -/
theorem and_mask_eq_iff (w m v : CmdWord) :
    w &&& m = v ↔ ∀ i < 64, (w.getLsbD i && m.getLsbD i) = v.getLsbD i := by
  constructor
  · rintro rfl i _
    simp
  · intro h
    apply BitVec.eq_of_getLsbD_eq
    intro i hi
    simp [h i hi]

/-- Every row's mask covers the whole opcode byte, so a word in a row has the row's opcode. -/
theorem opcode_of_row {w : CmdWord} {r : OpcodeRow} (hr : r ∈ opcodeMap) (h : w &&& r.mask = r.bits) :
    w.extractLsb' 56 8 = r.bits.extractLsb' 56 8 := by
  have hm : ∀ r ∈ opcodeMap, r.mask.extractLsb' 56 8 = 0xFF#8 := by
    intro r hr
    simp only [opcodeMap, List.mem_cons, List.not_mem_nil, or_false] at hr
    rcases hr with rfl | rfl | rfl | rfl | rfl | rfl | rfl <;> rfl
  have ones : ∀ i : Fin 8, (0xFF#8).getLsbD i.val = true := by decide
  rw [extractLsb'_eq_iff]
  intro i hi
  have hbit := (extractLsb'_eq_iff _ _ _ _).mp (hm r hr) i hi
  rw [ones ⟨i, hi⟩] at hbit
  have := (and_mask_eq_iff _ _ _).mp h (56 + i) (by omega)
  rw [hbit, Bool.and_true] at this
  rw [this]
  simp [hi]

end Sys2Proof
end

