-- ==== Sys2Proof/Laws/State.lean ====
section
/-! SUPPORT. One lemma per field per update of `State`: what each shared operation leaves in each field. -/

namespace Sys2Proof.Machine

/-! ### `succeed` -/

@[simp] theorem succeed_cid (s : State) : (succeed s).cid = s.cid := rfl
@[simp] theorem succeed_srcName (s : State) : (succeed s).srcName = s.srcName := rfl
@[simp] theorem succeed_nameLen (s : State) : (succeed s).nameLen = s.nameLen := rfl
@[simp] theorem succeed_priority (s : State) : (succeed s).priority = s.priority := rfl
@[simp] theorem succeed_stg (s : State) : (succeed s).stg = s.stg := rfl
@[simp] theorem succeed_slot (s : State) : (succeed s).slot = s.slot := rfl
@[simp] theorem succeed_slotCnt (s : State) : (succeed s).slotCnt = s.slotCnt := rfl
@[simp] theorem succeed_univ (s : State) : (succeed s).univ = s.univ := rfl
@[simp] theorem succeed_uList (s : State) : (succeed s).uList = s.uList := rfl
@[simp] theorem succeed_uCnt (s : State) : (succeed s).uCnt = s.uCnt := rfl
@[simp] theorem succeed_page (s : State) : (succeed s).page = s.page := rfl
@[simp] theorem succeed_lastPage (s : State) : (succeed s).lastPage = s.lastPage := rfl
@[simp] theorem succeed_out (s : State) : (succeed s).out = s.out := rfl
@[simp] theorem succeed_outLen (s : State) : (succeed s).outLen = s.outLen := rfl
@[simp] theorem succeed_status (s : State) : (succeed s).status = statusSuccess := rfl
@[simp] theorem succeed_flRes (s : State) : (succeed s).flRes = s.flRes := rfl
@[simp] theorem succeed_host (s : State) : (succeed s).host = s.host := rfl
@[simp] theorem succeed_returned (s : State) : (succeed s).returned = s.returned := rfl

/-! ### `raiseError` -/

@[simp] theorem raiseError_cid (e : Bool) (c : ErrorCode) (s : State) : (raiseError e c s).cid = s.cid := rfl
@[simp] theorem raiseError_srcName (e : Bool) (c : ErrorCode) (s : State) : (raiseError e c s).srcName = s.srcName := rfl
@[simp] theorem raiseError_nameLen (e : Bool) (c : ErrorCode) (s : State) : (raiseError e c s).nameLen = s.nameLen := rfl
@[simp] theorem raiseError_priority (e : Bool) (c : ErrorCode) (s : State) : (raiseError e c s).priority = s.priority := rfl
@[simp] theorem raiseError_stg (e : Bool) (c : ErrorCode) (s : State) : (raiseError e c s).stg = s.stg := rfl
@[simp] theorem raiseError_slot (e : Bool) (c : ErrorCode) (s : State) : (raiseError e c s).slot = s.slot := rfl
@[simp] theorem raiseError_slotCnt (e : Bool) (c : ErrorCode) (s : State) : (raiseError e c s).slotCnt = s.slotCnt := rfl
@[simp] theorem raiseError_univ (e : Bool) (c : ErrorCode) (s : State) : (raiseError e c s).univ = s.univ := rfl
@[simp] theorem raiseError_uList (e : Bool) (c : ErrorCode) (s : State) : (raiseError e c s).uList = s.uList := rfl
@[simp] theorem raiseError_uCnt (e : Bool) (c : ErrorCode) (s : State) : (raiseError e c s).uCnt = s.uCnt := rfl
@[simp] theorem raiseError_page (e : Bool) (c : ErrorCode) (s : State) : (raiseError e c s).page = s.page := rfl
@[simp] theorem raiseError_lastPage (e : Bool) (c : ErrorCode) (s : State) : (raiseError e c s).lastPage = s.lastPage := rfl
@[simp] theorem raiseError_out (e : Bool) (c : ErrorCode) (s : State) : (raiseError e c s).out = s.out := rfl
@[simp] theorem raiseError_outLen (e : Bool) (c : ErrorCode) (s : State) : (raiseError e c s).outLen = if e then 0 else s.outLen := rfl
@[simp] theorem raiseError_status (e : Bool) (c : ErrorCode) (s : State) : (raiseError e c s).status = statusError c := rfl
@[simp] theorem raiseError_flRes (e : Bool) (c : ErrorCode) (s : State) : (raiseError e c s).flRes = s.flRes := rfl
@[simp] theorem raiseError_host (e : Bool) (c : ErrorCode) (s : State) : (raiseError e c s).host = s.host := rfl
@[simp] theorem raiseError_returned (e : Bool) (c : ErrorCode) (s : State) : (raiseError e c s).returned = s.returned := rfl

/-! ### `commitPacket` -/

@[simp] theorem commitPacket_cid (p : List Byte) (s : State) : (commitPacket p s).cid = s.cid := rfl
@[simp] theorem commitPacket_srcName (p : List Byte) (s : State) : (commitPacket p s).srcName = s.srcName := rfl
@[simp] theorem commitPacket_nameLen (p : List Byte) (s : State) : (commitPacket p s).nameLen = s.nameLen := rfl
@[simp] theorem commitPacket_priority (p : List Byte) (s : State) : (commitPacket p s).priority = s.priority := rfl
@[simp] theorem commitPacket_stg (p : List Byte) (s : State) : (commitPacket p s).stg = s.stg := rfl
@[simp] theorem commitPacket_slot (p : List Byte) (s : State) : (commitPacket p s).slot = s.slot := rfl
@[simp] theorem commitPacket_slotCnt (p : List Byte) (s : State) : (commitPacket p s).slotCnt = s.slotCnt := rfl
@[simp] theorem commitPacket_univ (p : List Byte) (s : State) : (commitPacket p s).univ = s.univ := rfl
@[simp] theorem commitPacket_uList (p : List Byte) (s : State) : (commitPacket p s).uList = s.uList := rfl
@[simp] theorem commitPacket_uCnt (p : List Byte) (s : State) : (commitPacket p s).uCnt = s.uCnt := rfl
@[simp] theorem commitPacket_page (p : List Byte) (s : State) : (commitPacket p s).page = s.page := rfl
@[simp] theorem commitPacket_lastPage (p : List Byte) (s : State) : (commitPacket p s).lastPage = s.lastPage := rfl
@[simp] theorem commitPacket_out (p : List Byte) (s : State) : (commitPacket p s).out = s.out.overwrite p := rfl
@[simp] theorem commitPacket_outLen (p : List Byte) (s : State) : (commitPacket p s).outLen = BitVec.ofNat 16 p.length := rfl
@[simp] theorem commitPacket_status (p : List Byte) (s : State) : (commitPacket p s).status = statusSuccess := rfl
@[simp] theorem commitPacket_flRes (p : List Byte) (s : State) : (commitPacket p s).flRes = s.flRes := rfl
@[simp] theorem commitPacket_host (p : List Byte) (s : State) : (commitPacket p s).host = s.host := rfl
@[simp] theorem commitPacket_returned (p : List Byte) (s : State) : (commitPacket p s).returned = s.returned := rfl

/-! ### `hostRead` -/

@[simp] theorem hostRead_cid (l : Loc) (s : State) : (hostRead l s).cid = s.cid := rfl
@[simp] theorem hostRead_srcName (l : Loc) (s : State) : (hostRead l s).srcName = s.srcName := rfl
@[simp] theorem hostRead_nameLen (l : Loc) (s : State) : (hostRead l s).nameLen = s.nameLen := rfl
@[simp] theorem hostRead_priority (l : Loc) (s : State) : (hostRead l s).priority = s.priority := rfl
@[simp] theorem hostRead_stg (l : Loc) (s : State) : (hostRead l s).stg = s.stg := rfl
@[simp] theorem hostRead_slot (l : Loc) (s : State) : (hostRead l s).slot = s.slot := rfl
@[simp] theorem hostRead_slotCnt (l : Loc) (s : State) : (hostRead l s).slotCnt = s.slotCnt := rfl
@[simp] theorem hostRead_univ (l : Loc) (s : State) : (hostRead l s).univ = s.univ := rfl
@[simp] theorem hostRead_uList (l : Loc) (s : State) : (hostRead l s).uList = s.uList := rfl
@[simp] theorem hostRead_uCnt (l : Loc) (s : State) : (hostRead l s).uCnt = s.uCnt := rfl
@[simp] theorem hostRead_page (l : Loc) (s : State) : (hostRead l s).page = s.page := rfl
@[simp] theorem hostRead_lastPage (l : Loc) (s : State) : (hostRead l s).lastPage = s.lastPage := rfl
@[simp] theorem hostRead_out (l : Loc) (s : State) : (hostRead l s).out = s.out := rfl
@[simp] theorem hostRead_outLen (l : Loc) (s : State) : (hostRead l s).outLen = s.outLen := rfl
@[simp] theorem hostRead_status (l : Loc) (s : State) : (hostRead l s).status = s.status := rfl
@[simp] theorem hostRead_flRes (l : Loc) (s : State) : (hostRead l s).flRes = s.flRes := rfl
@[simp] theorem hostRead_host (l : Loc) (s : State) : (hostRead l s).host = s.host := rfl
@[simp] theorem hostRead_returned (l : Loc) (s : State) : (hostRead l s).returned = readLoc l s :: s.returned := rfl

/-! ### `takeAction` -/

@[simp] theorem takeAction_cid (r : List HostAction) (s : State) : (takeAction r s).cid = s.cid := rfl
@[simp] theorem takeAction_srcName (r : List HostAction) (s : State) : (takeAction r s).srcName = s.srcName := rfl
@[simp] theorem takeAction_nameLen (r : List HostAction) (s : State) : (takeAction r s).nameLen = s.nameLen := rfl
@[simp] theorem takeAction_priority (r : List HostAction) (s : State) : (takeAction r s).priority = s.priority := rfl
@[simp] theorem takeAction_stg (r : List HostAction) (s : State) : (takeAction r s).stg = s.stg := rfl
@[simp] theorem takeAction_slot (r : List HostAction) (s : State) : (takeAction r s).slot = s.slot := rfl
@[simp] theorem takeAction_slotCnt (r : List HostAction) (s : State) : (takeAction r s).slotCnt = s.slotCnt := rfl
@[simp] theorem takeAction_univ (r : List HostAction) (s : State) : (takeAction r s).univ = s.univ := rfl
@[simp] theorem takeAction_uList (r : List HostAction) (s : State) : (takeAction r s).uList = s.uList := rfl
@[simp] theorem takeAction_uCnt (r : List HostAction) (s : State) : (takeAction r s).uCnt = s.uCnt := rfl
@[simp] theorem takeAction_page (r : List HostAction) (s : State) : (takeAction r s).page = s.page := rfl
@[simp] theorem takeAction_lastPage (r : List HostAction) (s : State) : (takeAction r s).lastPage = s.lastPage := rfl
@[simp] theorem takeAction_out (r : List HostAction) (s : State) : (takeAction r s).out = s.out := rfl
@[simp] theorem takeAction_outLen (r : List HostAction) (s : State) : (takeAction r s).outLen = s.outLen := rfl
@[simp] theorem takeAction_status (r : List HostAction) (s : State) : (takeAction r s).status = s.status := rfl
@[simp] theorem takeAction_flRes (r : List HostAction) (s : State) : (takeAction r s).flRes = s.flRes := rfl
@[simp] theorem takeAction_host (r : List HostAction) (s : State) : (takeAction r s).host = r := rfl
@[simp] theorem takeAction_returned (r : List HostAction) (s : State) : (takeAction r s).returned = s.returned := rfl

/-! ### `presentCommand` -/

@[simp] theorem presentCommand_cid (w : CmdWord) (s : State) : (presentCommand w s).cid = s.cid := rfl
@[simp] theorem presentCommand_srcName (w : CmdWord) (s : State) : (presentCommand w s).srcName = s.srcName := rfl
@[simp] theorem presentCommand_nameLen (w : CmdWord) (s : State) : (presentCommand w s).nameLen = s.nameLen := rfl
@[simp] theorem presentCommand_priority (w : CmdWord) (s : State) : (presentCommand w s).priority = s.priority := rfl
@[simp] theorem presentCommand_stg (w : CmdWord) (s : State) : (presentCommand w s).stg = s.stg := rfl
@[simp] theorem presentCommand_slot (w : CmdWord) (s : State) : (presentCommand w s).slot = s.slot := rfl
@[simp] theorem presentCommand_slotCnt (w : CmdWord) (s : State) : (presentCommand w s).slotCnt = s.slotCnt := rfl
@[simp] theorem presentCommand_univ (w : CmdWord) (s : State) : (presentCommand w s).univ = s.univ := rfl
@[simp] theorem presentCommand_uList (w : CmdWord) (s : State) : (presentCommand w s).uList = s.uList := rfl
@[simp] theorem presentCommand_uCnt (w : CmdWord) (s : State) : (presentCommand w s).uCnt = s.uCnt := rfl
@[simp] theorem presentCommand_page (w : CmdWord) (s : State) : (presentCommand w s).page = s.page := rfl
@[simp] theorem presentCommand_lastPage (w : CmdWord) (s : State) : (presentCommand w s).lastPage = s.lastPage := rfl
@[simp] theorem presentCommand_out (w : CmdWord) (s : State) : (presentCommand w s).out = s.out := rfl
@[simp] theorem presentCommand_outLen (w : CmdWord) (s : State) : (presentCommand w s).outLen = s.outLen := rfl
@[simp] theorem presentCommand_status (w : CmdWord) (s : State) : (presentCommand w s).status = s.status := rfl
@[simp] theorem presentCommand_flRes (w : CmdWord) (s : State) : (presentCommand w s).flRes = s.flRes := rfl
@[simp] theorem presentCommand_host (w : CmdWord) (s : State) : (presentCommand w s).host = .cmd w :: s.host := rfl
@[simp] theorem presentCommand_returned (w : CmdWord) (s : State) : (presentCommand w s).returned = s.returned := rfl

/-! ### `hostReset` -/

@[simp] theorem hostReset_cid (s : State) : (hostReset s).cid = State.reset.cid := rfl
@[simp] theorem hostReset_srcName (s : State) : (hostReset s).srcName = State.reset.srcName := rfl
@[simp] theorem hostReset_nameLen (s : State) : (hostReset s).nameLen = State.reset.nameLen := rfl
@[simp] theorem hostReset_priority (s : State) : (hostReset s).priority = State.reset.priority := rfl
@[simp] theorem hostReset_stg (s : State) : (hostReset s).stg = State.reset.stg := rfl
@[simp] theorem hostReset_slot (s : State) : (hostReset s).slot = State.reset.slot := rfl
@[simp] theorem hostReset_slotCnt (s : State) : (hostReset s).slotCnt = State.reset.slotCnt := rfl
@[simp] theorem hostReset_univ (s : State) : (hostReset s).univ = State.reset.univ := rfl
@[simp] theorem hostReset_uList (s : State) : (hostReset s).uList = State.reset.uList := rfl
@[simp] theorem hostReset_uCnt (s : State) : (hostReset s).uCnt = State.reset.uCnt := rfl
@[simp] theorem hostReset_page (s : State) : (hostReset s).page = State.reset.page := rfl
@[simp] theorem hostReset_lastPage (s : State) : (hostReset s).lastPage = State.reset.lastPage := rfl
@[simp] theorem hostReset_out (s : State) : (hostReset s).out = State.reset.out := rfl
@[simp] theorem hostReset_outLen (s : State) : (hostReset s).outLen = State.reset.outLen := rfl
@[simp] theorem hostReset_status (s : State) : (hostReset s).status = State.reset.status := rfl
@[simp] theorem hostReset_flRes (s : State) : (hostReset s).flRes = State.reset.flRes := rfl
@[simp] theorem hostReset_host (s : State) : (hostReset s).host = s.host := rfl
@[simp] theorem hostReset_returned (s : State) : (hostReset s).returned = s.returned := rfl

end Sys2Proof.Machine
end

