-- ==== Sys2Proof/Laws/Lengths.lean ====
section
/-! SUPPORT. The length calculator: `FL` below and above its limit, and the lengths of each packet kind. -/

namespace Sys2Proof.Machine

theorem flagsAndLength_ok {len : Nat} (h : len ≤ 4095) :
    flagsAndLength len = .ok (0x7000#16 ||| BitVec.ofNat 16 len) :=
  if_neg (by simp; omega)

theorem flagsAndLength_error {len : Nat} (h : 4095 < len) : flagsAndLength len = .error .length :=
  if_pos (by simp; omega)

/-- The bits of a 12-bit length and of 0x7000 do not overlap. -/
theorem toNat_flagsAndLength {len : Nat} (h : len ≤ 4095) :
    (0x7000#16 ||| BitVec.ofNat 16 len).toNat = 0x7000 + len := by
  have e : 2 ^ 12 * 7 + len = 2 ^ 12 * 7 ||| len := Nat.two_pow_add_eq_or_of_lt (by omega) 7
  have m : len % 2 ^ 16 = len := Nat.mod_eq_of_lt (by omega)
  simp only [BitVec.toNat_or, BitVec.toNat_ofNat, m]
  exact e.symm

theorem payLen_data : payLen .data = some 523 := rfl
theorem frameLen_data : frameLen .data = 600 := rfl
theorem rootLen_data : rootLen .data = 622 := rfl
theorem payLen_sync : payLen .sync = none := rfl
theorem frameLen_sync : frameLen .sync = 11 := rfl
theorem rootLen_sync : rootLen .sync = 33 := rfl
theorem udlLen_eq (n : Nat) : udlLen n = 8 + 2 * n := rfl
theorem payLen_disc (n : Nat) : payLen (.disc n) = some (8 + 2 * n) := rfl

theorem frameLen_disc (n : Nat) : frameLen (.disc n) = 82 + 2 * n := by
  simp [frameLen, framingOwn, payLen, udlLen]; omega

theorem rootLen_disc (n : Nat) : rootLen (.disc n) = 104 + 2 * n := by
  simp [rootLen, frameLen_disc]; omega

/-- What `FLEN` does, both ways. -/
theorem execFlen_ok {len : Half} (h : len.toNat ≤ 4095) (s : State) :
    execFlen len s = .next { s with flRes := 0x7000#16 ||| len, status := statusSuccess } := by
  simp [execFlen, flagsAndLength_ok h, succeed]

theorem execFlen_error {len : Half} (h : 4095 < len.toNat) (s : State) :
    execFlen len s = .next (raiseError false .length s) := by
  simp [execFlen, flagsAndLength_error h]

end Sys2Proof.Machine
end

