-- ==== Sys2Proof/Laws/Operands.lean ====
section
/-! SUPPORT. The laws of the operand forms: the sort, the serialisers, the accepted ranges. -/

namespace Sys2Proof.Machine

@[simp] theorem length_be16 (v : Half) : (be16 v).length = 2 := rfl

@[simp] theorem length_be32 (v : BitVec 32) : (be32 v).length = 4 := rfl

@[simp] theorem length_flatMap_be16 (l : List Half) : (l.flatMap be16).length = 2 * l.length := by
  induction l with
  | nil => rfl
  | cons u us ih => simp [ih]; omega

/-- Entry `k` of a serialised list stands at bytes `2k` and `2k + 1`, most significant first. -/
theorem getD_flatMap_be16 (l : List Half) (k : Nat) (h : k < l.length) :
    (l.flatMap be16).getD (2 * k) 0 = (l.getD k 0).extractLsb' 8 8
      ∧ (l.flatMap be16).getD (2 * k + 1) 0 = (l.getD k 0).extractLsb' 0 8 := by
  induction l generalizing k with
  | nil => simp at h
  | cons u us ih =>
    cases k with
    | zero => simp [be16]
    | succ k =>
      have := ih k (by simpa using h)
      have e : 2 * (k + 1) = 2 * k + 1 + 1 := by omega
      simpa [be16, e] using this

theorem insertAsc_perm (u : Half) (l : List Half) : (insertAsc u l).Perm (u :: l) := by
  induction l with
  | nil => exact .refl _
  | cons v vs ih =>
    simp only [insertAsc]
    split
    · exact .refl _
    · exact (ih.cons v).trans (.swap u v vs)

/-- The sort keeps every entry, with its multiplicity. -/
theorem sortAsc_perm (l : List Half) : (sortAsc l).Perm l := by
  induction l with
  | nil => exact .refl _
  | cons u us ih => exact (insertAsc_perm u _).trans (ih.cons u)

@[simp] theorem length_sortAsc (l : List Half) : (sortAsc l).length = l.length :=
  (sortAsc_perm l).length_eq

theorem insertAsc_pairwise (u : Half) {l : List Half} (h : l.Pairwise fun a b => a.toNat ≤ b.toNat) :
    (insertAsc u l).Pairwise fun a b => a.toNat ≤ b.toNat := by
  induction l with
  | nil => simp [insertAsc]
  | cons v vs ih =>
    obtain ⟨hv, hvs⟩ := List.pairwise_cons.mp h
    simp only [insertAsc]
    split
    · rename_i huv
      refine List.pairwise_cons.mpr ⟨fun x hx => ?_, h⟩
      rcases List.mem_cons.mp hx with rfl | hx
      · exact huv
      · exact huv.trans (hv x hx)
    · rename_i huv
      refine List.pairwise_cons.mpr ⟨fun x hx => ?_, ih hvs⟩
      rcases List.mem_cons.mp ((insertAsc_perm u vs).mem_iff.mp hx) with rfl | hx
      · omega
      · exact hv x hx

/-- The sorted list is in non-decreasing order. -/
theorem sortAsc_pairwise (l : List Half) : (sortAsc l).Pairwise fun a b => a.toNat ≤ b.toNat := by
  induction l with
  | nil => exact .nil
  | cons u us ih => exact insertAsc_pairwise u ih

theorem nameLengthOk_iff (n : Half) : nameLengthOk n = true ↔ 1 ≤ n.toNat ∧ n.toNat ≤ 63 := by
  rw [nameLengthOk, Bool.and_eq_true, decide_eq_true_eq, decide_eq_true_eq]
  rfl

theorem priorityOk_iff (p : Half) : priorityOk p = true ↔ p.toNat ≤ 200 := by
  rw [priorityOk, decide_eq_true_eq]
  rfl

theorem universeOk_iff (u : Half) : universeOk u = true ↔ 1 ≤ u.toNat ∧ u.toNat ≤ 63999 := by
  rw [universeOk, Bool.and_eq_true, decide_eq_true_eq, decide_eq_true_eq]
  rfl

theorem length_advertised (s : State) (h : s.uCnt.toNat ≤ 512) :
    (advertised s).length = s.uCnt.toNat := by
  simp [advertised, h]

theorem getD_advertised (s : State) {i : Nat} (h : i < s.uCnt.toNat) :
    (advertised s).getD i 0 = s.uList.get i := by
  simp [advertised, Buf.get, List.getElem?_take_of_lt h]

/-- Every advertised number is valid exactly when each of `ULIST[0..UCNT-1]` is. -/
theorem all_universeOk_iff (s : State) (h : s.uCnt.toNat ≤ 512) :
    (advertised s).all universeOk = true
      ↔ ∀ i < s.uCnt.toNat, 1 ≤ (s.uList.get i).toNat ∧ (s.uList.get i).toNat ≤ 63999 := by
  have hl := length_advertised s h
  rw [List.all_eq_true]
  constructor
  · intro hall i hi
    rw [← universeOk_iff, ← getD_advertised s hi, List.getD_eq_getElem _ _ (hl.symm ▸ hi)]
    exact hall _ (List.getElem_mem _)
  · intro hall u hu
    obtain ⟨i, hi, rfl⟩ := List.getElem_of_mem hu
    rw [universeOk_iff, ← List.getD_eq_getElem _ 0 hi, getD_advertised s (hl ▸ hi)]
    exact hall i (hl ▸ hi)

theorem stagedCid_get (s : State) {i : Nat} (h : i < 16) : (stagedCid s).get i = s.stg.get i :=
  Buf.get_build h

theorem stagedName_get (n : Nat) (s : State) {i : Nat} (h : i < 64) :
    (stagedName n s).get i = if i < n then s.stg.get i else 0 :=
  Buf.get_build h

end Sys2Proof.Machine
end

