-- ==== Sys2Proof/Laws/Packets.lean ====
section
/-! SUPPORT. The packets as lists of fields: what each packet command's bytes are once its checks pass, how
many they are, and where each field lies in `OUT`. -/

namespace Sys2Proof.Machine

/-- The fields of the root layer, in order (30_encoding.md R101). -/
def rootFields (vector : BitVec 32) (len : Nat) (s : State) : List (List Byte) :=
  [packetPreamble, be16 (0x7000#16 ||| BitVec.ofNat 16 len), be32 vector, s.cid.cells]

/-- The fields of a data packet, in order (30_encoding.md R109). -/
def dataFields (sync : Half) (seq opt : Byte) (s : State) : List (List Byte) :=
  rootFields vectorData 622 s ++
  [[0x72, 0x58], [0x00, 0x00, 0x00, 0x02], s.srcName.cells, [s.priority], be16 sync, [seq],
    [wireOptions opt], be16 s.univ, [0x72, 0x0b], [0x02], [0xa1], [0x00, 0x00], [0x00, 0x01],
    [0x02, 0x01], [0x00], s.slot.cells]

/-- The fields of a sync packet, in order (30_encoding.md R110). -/
def syncFields (sync : Half) (seq : Byte) (s : State) : List (List Byte) :=
  rootFields vectorExtended 33 s ++
  [[0x70, 0x0b], [0x00, 0x00, 0x00, 0x01], [seq], be16 sync, [0x00, 0x00]]

/-- The fields of a discovery packet, in order (30_encoding.md R111). -/
def discFields (s : State) : List (List Byte) :=
  rootFields vectorExtended (104 + 2 * s.uCnt.toNat) s ++
  [be16 (0x7000#16 ||| BitVec.ofNat 16 (82 + 2 * s.uCnt.toNat)), [0x00, 0x00, 0x00, 0x02],
    s.srcName.cells, [0x00, 0x00, 0x00, 0x00],
    be16 (0x7000#16 ||| BitVec.ofNat 16 (8 + 2 * s.uCnt.toNat)), [0x00, 0x00, 0x00, 0x01], [s.page],
    [s.lastPage], (sortAsc (advertised s)).flatMap be16]

theorem buildRoot_ok {len : Nat} (h : len ≤ 4095) (vector : BitVec 32) (s : State) :
    buildRoot vector len s = .ok (rootFields vector len s).flatten := by
  simp [buildRoot, flagsAndLength_ok h, rootFields, bind, Except.bind, pure, Except.pure,
    packetPreamble, acnId, be16]

theorem validateData_ok {s : State} (hs : s.slotCnt = 512) (hu : universeOk s.univ = true) :
    validateData s = .ok () := by
  simp [validateData, hs, hu]

theorem validateDisc_ok {s : State} (hn : s.uCnt.toNat ≤ 512)
    (hu : (advertised s).all universeOk = true) : validateDisc s = .ok () := by
  simp only [validateDisc, Config.pageEntries, hu, if_true]
  exact if_neg (by omega)

theorem dataPacket_ok {s : State} (hs : s.slotCnt = 512) (hu : universeOk s.univ = true)
    (sync : Half) (seq opt : Byte) :
    dataPacket sync seq opt s = .ok (dataFields sync seq opt s).flatten := by
  simp [dataPacket, validateData_ok hs hu, buildRoot_ok, buildFramingData, buildDmp,
    flagsAndLength_ok, frameLen_data, rootLen_data, dataFields, bind, Except.bind, pure,
    Except.pure, be16, be32]

theorem syncPacket_ok (s : State) (sync : Half) (seq : Byte) :
    syncPacket sync seq s = .ok (syncFields sync seq s).flatten := by
  simp [syncPacket, buildRoot_ok, buildFramingSync, flagsAndLength_ok, frameLen_sync, rootLen_sync,
    syncFields, bind, Except.bind, pure, Except.pure, be16, be32]

theorem discPacket_ok {s : State} (hn : s.uCnt.toNat ≤ 512)
    (hu : (advertised s).all universeOk = true) : discPacket s = .ok (discFields s).flatten := by
  have h1 : 104 + 2 * s.uCnt.toNat ≤ 4095 := by omega
  have h2 : 82 + 2 * s.uCnt.toNat ≤ 4095 := by omega
  have h3 : 8 + 2 * s.uCnt.toNat ≤ 4095 := by omega
  simp [discPacket, validateDisc_ok hn hu, buildRoot_ok h1, buildFramingDisc, buildUdl,
    flagsAndLength_ok h2, flagsAndLength_ok h3, frameLen_disc, rootLen_disc, udlLen_eq, discFields,
    bind, Except.bind, pure, Except.pure, be32]

theorem length_dataFields (sync : Half) (seq opt : Byte) (s : State) :
    (dataFields sync seq opt s).flatten.length = 638 := by
  simp [dataFields, rootFields, packetPreamble]

theorem length_syncFields (sync : Half) (seq : Byte) (s : State) :
    (syncFields sync seq s).flatten.length = 49 := by
  simp [syncFields, rootFields, packetPreamble]

theorem length_discFields {s : State} (hn : s.uCnt.toNat ≤ 512) :
    (discFields s).flatten.length = 120 + 2 * s.uCnt.toNat := by
  simp [discFields, rootFields, packetPreamble, length_advertised s hn]
  omega

/-- Field `k` of a packet lies in `OUT` right after the fields before it. -/
theorem bytesAt_overwrite_flatten (o : Buf 8 1144) (fields : List (List Byte)) (k : Nat)
    (hk : k < fields.length) (hl : fields.flatten.length ≤ 1144) :
    bytesAt (o.overwrite fields.flatten) (fields.take k).flatten.length fields[k] := by
  intro j hj
  have e : fields.flatten = (fields.take k).flatten ++ (fields[k] ++ (fields.drop (k + 1)).flatten) := by
    rw [← List.flatten_cons, List.getElem_cons_drop, ← List.flatten_append, List.take_append_drop]
  have hlt : (fields.take k).flatten.length + j < fields.flatten.length := by
    rw [e, List.length_append, List.length_append]; omega
  rw [Buf.get_overwrite_lt o hlt hl, e]
  simp [List.getElem?_append_right, List.getElem?_append_left hj]

/-- The same, with the field and its offset named. -/
theorem bytesAt_field (o : Buf 8 1144) {fields : List (List Byte)} (hl : fields.flatten.length ≤ 1144)
    {k off : Nat} {bs : List Byte} (hk : fields[k]? = some bs)
    (ho : (fields.take k).flatten.length = off) : bytesAt (o.overwrite fields.flatten) off bs := by
  obtain ⟨hk', rfl⟩ := List.getElem?_eq_some_iff.mp hk
  subst ho
  exact bytesAt_overwrite_flatten o fields k hk' hl

theorem bytesAt_one {o : Buf 8 1144} {off : Nat} {b : Byte} (h : bytesAt o off [b]) :
    o.get off = b := by
  simpa using h 0 (by simp)

theorem bytesAt_two {o : Buf 8 1144} {off : Nat} {a b : Byte} (h : bytesAt o off [a, b]) :
    o.get off = a ∧ o.get (off + 1) = b :=
  ⟨h 0 (by simp), h 1 (by simp)⟩

theorem bytesAt_cells {n : Nat} {o : Buf 8 1144} {off : Nat} {b : Buf 8 n}
    (h : bytesAt o off b.cells) : ∀ i < n, o.get (off + i) = b.get i :=
  fun i hi => h i (by simpa using hi)

/-- The two bytes of a 16-bit field, read as one big-endian number. -/
theorem toNat_be16 (v : Half) :
    (v.extractLsb' 8 8).toNat * 256 + (v.extractLsb' 0 8).toNat = v.toNat := by
  have := v.isLt
  simp only [BitVec.extractLsb'_toNat, Nat.shiftRight_eq_div_pow]
  omega

/-- A Flags-and-Length field in `OUT` reads back as 0x7000 and its length. -/
theorem bytesAt_flagsAndLength {o : Buf 8 1144} {off len : Nat}
    (h : bytesAt o off (be16 (0x7000#16 ||| BitVec.ofNat 16 len))) (hl : len ≤ 4095) :
    (o.get off).toNat * 256 + (o.get (off + 1)).toNat = 0x7000 + len := by
  obtain ⟨h0, h1⟩ := bytesAt_two h
  rw [h0, h1]
  exact (toNat_be16 _).trans (toNat_flagsAndLength hl)

/-- The low twelve bits and the flags nibble of a Flags-and-Length field. -/
theorem flagsAndLength_split {a b : Byte} {n : Nat} (hn : n ≤ 4095)
    (h : a.toNat * 256 + b.toNat = 0x7000 + n) :
    (a &&& 0x0F).toNat * 256 + b.toNat = n ∧ a &&& 0xF0 = 0x70 := by
  have hb := b.isLt
  have hl : (a &&& 0x0F).toNat = a.toNat % 16 := by
    have := Nat.and_two_pow_sub_one_eq_mod a.toNat 4
    simpa using this
  have hd : a.toNat / 16 = 7 := by clear hl; omega
  have hm : a.toNat % 16 = a.toNat - 112 := by clear hl h; omega
  have hge : 112 ≤ a.toNat := by clear hl h hm; omega
  refine ⟨by rw [hl, hm]; linarith [Nat.sub_mul a.toNat 112 256, Nat.sub_add_cancel hge], ?_⟩
  apply BitVec.eq_of_toNat_eq
  have key : ∀ x : Fin 16, (112 + x.val) &&& 0xF0 = 0x70 := by decide
  have := key ⟨a.toNat - 112, by clear hl hm h; omega⟩
  rw [BitVec.toNat_and]
  simpa [Nat.add_sub_cancel' hge] using this

/-- An encode command either commits a packet or raises. -/
theorem finishEncode_ok {r : Except ErrorCode (List Byte)} {p : List Byte} (h : r = .ok p) (s : State) :
    finishEncode r s = .next (commitPacket p s) := by
  rw [h]; rfl

theorem finishEncode_error {r : Except ErrorCode (List Byte)} {c : ErrorCode} (h : r = .error c)
    (s : State) : finishEncode r s = .next (raiseError true c s) := by
  rw [h]; rfl

theorem dataPacket_slots {s : State} (h : s.slotCnt ≠ 512) (sync : Half) (seq opt : Byte) :
    dataPacket sync seq opt s = .error .slots := by
  have : s.slotCnt.toNat ≠ 512 := fun e => h (BitVec.eq_of_toNat_eq e)
  simp [dataPacket, validateData, this, bind, Except.bind]

theorem dataPacket_universe {s : State} (hs : s.slotCnt = 512) (hu : universeOk s.univ = false)
    (sync : Half) (seq opt : Byte) : dataPacket sync seq opt s = .error .universeNumber := by
  simp [dataPacket, validateData, hs, hu, bind, Except.bind]

theorem discPacket_page {s : State} (h : 512 < s.uCnt.toNat) : discPacket s = .error .page := by
  simp [discPacket, validateDisc, h, bind, Except.bind]

theorem discPacket_universe {s : State} (hn : s.uCnt.toNat ≤ 512)
    (hu : (advertised s).all universeOk = false) : discPacket s = .error .universeNumber := by
  have : ¬ 512 < s.uCnt.toNat := by omega
  simp only [discPacket, validateDisc, Config.pageEntries, this, hu, bind, Except.bind]
  rfl

/-- What `DATA` does: one of three completions. -/
theorem execData_cases (sync : Half) (seq opt : Byte) (s : State) :
    (s.slotCnt = 512 ∧ universeOk s.univ = true ∧ execData sync seq opt s
        = .next (commitPacket (dataFields sync seq opt s).flatten s))
      ∨ (s.slotCnt ≠ 512 ∧ execData sync seq opt s = .next (raiseError true .slots s))
      ∨ (s.slotCnt = 512 ∧ universeOk s.univ = false
        ∧ execData sync seq opt s = .next (raiseError true .universeNumber s)) := by
  by_cases hs : s.slotCnt = 512
  · cases hu : universeOk s.univ with
    | true => exact .inl ⟨hs, rfl, finishEncode_ok (dataPacket_ok hs hu sync seq opt) s⟩
    | false => exact .inr (.inr ⟨hs, rfl, finishEncode_error (dataPacket_universe hs hu sync seq opt) s⟩)
  · exact .inr (.inl ⟨hs, finishEncode_error (dataPacket_slots hs sync seq opt) s⟩)

/-- What `SYNC` does: it always commits. -/
theorem execSync_eq (sync : Half) (seq : Byte) (s : State) :
    execSync sync seq s = .next (commitPacket (syncFields sync seq s).flatten s) :=
  finishEncode_ok (syncPacket_ok s sync seq) s

/-- What `DISC` does: one of three completions. -/
theorem execDisc_cases (seq : Byte) (s : State) :
    (s.uCnt.toNat ≤ 512 ∧ (advertised s).all universeOk = true
        ∧ execDisc seq s = .next (commitPacket (discFields s).flatten s))
      ∨ (512 < s.uCnt.toNat ∧ execDisc seq s = .next (raiseError true .page s))
      ∨ (s.uCnt.toNat ≤ 512 ∧ (advertised s).all universeOk = false
        ∧ execDisc seq s = .next (raiseError true .universeNumber s)) := by
  by_cases hn : s.uCnt.toNat ≤ 512
  · cases hu : (advertised s).all universeOk with
    | true => exact .inl ⟨hn, rfl, finishEncode_ok (discPacket_ok hn hu) s⟩
    | false => exact .inr (.inr ⟨hn, rfl, finishEncode_error (discPacket_universe hn hu) s⟩)
  · exact .inr (.inl ⟨by omega, finishEncode_error (discPacket_page (by omega)) s⟩)

end Sys2Proof.Machine
end

