-- ==== Sys2Proof/Laws/Exec.lean ====
section
/-! SUPPORT. What a command can do, said once: it has its effect, or it raises one of its errors. -/

namespace Sys2Proof.Machine

theorem execSetname_ok {n : Half} (h : nameLengthOk n = true) (s : State) :
    execSetname n s
      = .next (succeed { s with srcName := stagedName n.toNat s, nameLen := n.extractLsb' 0 8 }) :=
  if_pos h

theorem execSetname_error {n : Half} (h : nameLengthOk n = false) (s : State) :
    execSetname n s = .next (raiseError false .name s) :=
  if_neg (by simp [h])

theorem execSetpri_ok {p : Half} (h : priorityOk p = true) (s : State) :
    execSetpri p s = .next (succeed { s with priority := p.extractLsb' 0 8 }) :=
  if_pos h

theorem execSetpri_error {p : Half} (h : priorityOk p = false) (s : State) :
    execSetpri p s = .next (raiseError false .priority s) :=
  if_neg (by simp [h])

/-- `t` is the state `i` leaves when its checks pass in `s`. -/
def HasEffect (i : Instr) (s t : State) : Prop :=
  match i with
  | .setcid => t = succeed { s with cid := stagedCid s }
  | .setname n => nameLengthOk n = true
      ∧ t = succeed { s with srcName := stagedName n.toNat s, nameLen := n.extractLsb' 0 8 }
  | .setpri p => priorityOk p = true ∧ t = succeed { s with priority := p.extractLsb' 0 8 }
  | .data sync seq opt => s.slotCnt = 512 ∧ universeOk s.univ = true
      ∧ t = commitPacket (dataFields sync seq opt s).flatten s
  | .sync sync seq => t = commitPacket (syncFields sync seq s).flatten s
  | .disc _ => s.uCnt.toNat ≤ 512 ∧ (advertised s).all universeOk = true
      ∧ t = commitPacket (discFields s).flatten s
  | .flen len => len.toNat ≤ 4095
      ∧ t = { s with flRes := 0x7000#16 ||| len, status := statusSuccess }

/-- `i` raises `c` in `s`: its first failing check (60_exceptions.md R235). -/
def Raises (i : Instr) (s : State) (c : ErrorCode) : Prop :=
  match i with
  | .setcid => False
  | .setname n => nameLengthOk n = false ∧ c = .name
  | .setpri p => priorityOk p = false ∧ c = .priority
  | .data _ _ _ => (s.slotCnt ≠ 512 ∧ c = .slots)
      ∨ (s.slotCnt = 512 ∧ universeOk s.univ = false ∧ c = .universeNumber)
  | .sync _ _ => False
  | .disc _ => (512 < s.uCnt.toNat ∧ c = .page)
      ∨ (s.uCnt.toNat ≤ 512 ∧ (advertised s).all universeOk = false ∧ c = .universeNumber)
  | .flen len => 4095 < len.toNat ∧ c = .length

/-- The inversion of `exec`: every command answers a next state, by its effect or by an error. -/
theorem exec_cases (i : Instr) (s : State) :
    (∃ t, exec i s = .next t ∧ HasEffect i s t)
      ∨ ∃ c, exec i s = .next (raiseError (isEncode i) c s) ∧ Raises i s c := by
  cases i with
  | setcid => exact .inl ⟨_, rfl, rfl⟩
  | setname n =>
    cases h : nameLengthOk n with
    | true => exact .inl ⟨_, execSetname_ok h s, h, rfl⟩
    | false => exact .inr ⟨_, execSetname_error h s, h, rfl⟩
  | setpri p =>
    cases h : priorityOk p with
    | true => exact .inl ⟨_, execSetpri_ok h s, h, rfl⟩
    | false => exact .inr ⟨_, execSetpri_error h s, h, rfl⟩
  | data sync seq opt =>
    obtain ⟨hs, hu, h⟩ | ⟨hs, h⟩ | ⟨hs, hu, h⟩ := execData_cases sync seq opt s
    · exact .inl ⟨_, h, hs, hu, rfl⟩
    · exact .inr ⟨_, h, .inl ⟨hs, rfl⟩⟩
    · exact .inr ⟨_, h, .inr ⟨hs, hu, rfl⟩⟩
  | sync sync seq => exact .inl ⟨_, execSync_eq sync seq s, rfl⟩
  | disc seq =>
    obtain ⟨hn, hu, h⟩ | ⟨hn, h⟩ | ⟨hn, hu, h⟩ := execDisc_cases seq s
    · exact .inl ⟨_, h, hn, hu, rfl⟩
    · exact .inr ⟨_, h, .inl ⟨hn, rfl⟩⟩
    · exact .inr ⟨_, h, .inr ⟨hn, hu, rfl⟩⟩
  | flen len =>
    by_cases h : len.toNat ≤ 4095
    · exact .inl ⟨_, execFlen_ok h s, h, rfl⟩
    · exact .inr ⟨_, execFlen_error (by omega) s, by omega, rfl⟩

/-- A command that ran either had its effect or raised. -/
theorem exec_next_cases {i : Instr} {s t : State} (h : exec i s = .next t) :
    HasEffect i s t ∨ ∃ c, t = raiseError (isEncode i) c s ∧ Raises i s c := by
  obtain ⟨t', e, hE⟩ | ⟨c, e, hR⟩ := exec_cases i s
  · rw [e] at h
    injection h with h
    exact .inl (h ▸ hE)
  · rw [e] at h
    injection h with h
    exact .inr ⟨c, h.symm, hR⟩

/-- A command that had its effect reports success. -/
theorem HasEffect.status_eq {i : Instr} {s t : State} (h : HasEffect i s t) : t.status = statusSuccess := by
  cases i with
  | setcid => cases h; rfl
  | setname n => obtain ⟨_, rfl⟩ := h; rfl
  | setpri p => obtain ⟨_, rfl⟩ := h; rfl
  | data sync seq opt => obtain ⟨_, _, rfl⟩ := h; rfl
  | sync sync seq => cases h; rfl
  | disc seq => obtain ⟨_, _, rfl⟩ := h; rfl
  | flen len => obtain ⟨_, rfl⟩ := h; rfl

/-- An error code never reads as success. -/
theorem statusError_ne_success (c : ErrorCode) : statusError c ≠ statusSuccess := by
  cases c <;> decide

/-- A command that reports success had its effect. -/
theorem hasEffect_of_success {i : Instr} {s t : State} (h : exec i s = .next t)
    (hs : t.status = statusSuccess) : HasEffect i s t := by
  obtain hE | ⟨c, rfl, -⟩ := exec_next_cases h
  · exact hE
  · exact absurd hs (statusError_ne_success c)

/-- No command touches the host port. -/
theorem exec_port {i : Instr} {s t : State} (h : exec i s = .next t) :
    t.host = s.host ∧ t.returned = s.returned := by
  obtain hE | ⟨c, rfl, -⟩ := exec_next_cases h
  · cases i with
    | setcid => cases hE; exact ⟨rfl, rfl⟩
    | setname n => obtain ⟨_, rfl⟩ := hE; exact ⟨rfl, rfl⟩
    | setpri p => obtain ⟨_, rfl⟩ := hE; exact ⟨rfl, rfl⟩
    | data sync seq opt => obtain ⟨_, _, rfl⟩ := hE; exact ⟨rfl, rfl⟩
    | sync sync seq => cases hE; exact ⟨rfl, rfl⟩
    | disc seq => obtain ⟨_, _, rfl⟩ := hE; exact ⟨rfl, rfl⟩
    | flen len => obtain ⟨_, rfl⟩ := hE; exact ⟨rfl, rfl⟩
  · exact ⟨rfl, rfl⟩

end Sys2Proof.Machine
end

