-- ==== Sys2Proof/Laws/PerInstr.lean ====
section
/-! SUPPORT. Facts about every command as syntax, one lemma per constructor of `Instr`. -/

/-- A command's own word is well formed by the formats' fields (30_encoding.md R91 to R93). -/
def Sys2Proof.Laws.EncodeWellFormed.Statement (i : Sys2Proof.Instr) : Prop :=
  Sys2Proof.wellFormedWord (Sys2Proof.encode i) = true

namespace Sys2Proof.Laws.EncodeWellFormed

/-- The fields that decide well-formedness, given their values. -/
theorem of_fields {w : CmdWord} {op : Byte} {f : Format} (hop : w.extractLsb' 56 8 = op)
    (hf : formatOf op = some f) (hz : zeroFieldClear w f = true)
    (hu : unusedOperandsClear op w = true) : wellFormedWord w = true := by
  simp only [wellFormedWord, hop, hf, hz, hu, Bool.and_self]

theorem setcid : Statement .setcid := by unfold Statement; decide

theorem setname (n : Half) : Statement (.setname n) := by
  refine of_fields (op := 0x02) (f := .immediate) ?_ rfl (beq_iff_eq.mpr ?_) rfl
  all_goals
    apply BitVec.eq_of_getLsbD_eq
    intro i hi
    interval_cases i <;> simp [encode]

theorem setpri (p : Half) : Statement (.setpri p) := by
  refine of_fields (op := 0x03) (f := .immediate) ?_ rfl (beq_iff_eq.mpr ?_) rfl
  all_goals
    apply BitVec.eq_of_getLsbD_eq
    intro i hi
    interval_cases i <;> simp [encode]

theorem data (sync : Half) (seq opt : Byte) : Statement (.data sync seq opt) := by
  refine of_fields (op := 0x10) (f := .packet) ?_ rfl (beq_iff_eq.mpr ?_) rfl
  all_goals
    apply BitVec.eq_of_getLsbD_eq
    intro i hi
    interval_cases i <;> simp [encode]

theorem sync (sync : Half) (seq : Byte) : Statement (.sync sync seq) := by
  have hopt : (encode (.sync sync seq)).extractLsb' 48 8 = 0#8 := by
    apply BitVec.eq_of_getLsbD_eq
    intro i hi
    interval_cases i <;> simp [encode]
  refine of_fields (op := 0x11) (f := .packet) ?_ rfl (beq_iff_eq.mpr ?_) ?_
  rotate_left 2
  · simp [unusedOperandsClear, hopt]
  all_goals
    apply BitVec.eq_of_getLsbD_eq
    intro i hi
    interval_cases i <;> simp [encode]

theorem disc (seq : Byte) : Statement (.disc seq) := by
  have hopt : (encode (.disc seq)).extractLsb' 48 8 = 0#8 := by
    apply BitVec.eq_of_getLsbD_eq
    intro i hi
    interval_cases i <;> simp [encode]
  have hsync : (encode (.disc seq)).extractLsb' 24 16 = 0#16 := by
    apply BitVec.eq_of_getLsbD_eq
    intro i hi
    interval_cases i <;> simp [encode]
  refine of_fields (op := 0x12) (f := .packet) ?_ rfl (beq_iff_eq.mpr ?_) ?_
  rotate_left 2
  · simp [unusedOperandsClear, hopt, hsync]
  all_goals
    apply BitVec.eq_of_getLsbD_eq
    intro i hi
    interval_cases i <;> simp [encode]

theorem flen (len : Half) : Statement (.flen len) := by
  refine of_fields (op := 0x20) (f := .immediate) ?_ rfl (beq_iff_eq.mpr ?_) rfl
  all_goals
    apply BitVec.eq_of_getLsbD_eq
    intro i hi
    interval_cases i <;> simp [encode]

end Sys2Proof.Laws.EncodeWellFormed
end

