-- ==== Sys2Proof/Laws/Port.lean ====
section
/-! SUPPORT. The location map read by ranges, and what a host access does there. -/

namespace Sys2Proof.Machine

/-- The locations no element has (20_memory.md R61). -/
def unmapped (a : Nat) : Prop :=
  (0x045 ≤ a ∧ a ≤ 0x047) ∨ (0x04D ≤ a ∧ a ≤ 0x04F) ∨ (0x060 ≤ a ∧ a ≤ 0x07F)
    ∨ (0x0C0 ≤ a ∧ a ≤ 0x1FF) ∨ (0x600 ≤ a ∧ a ≤ 0x7FF) ∨ 0xC78 ≤ a

theorem locate_stg {loc : Loc} (h : loc.toNat < 0x040) : locate loc = some (.stg ⟨loc.toNat, h⟩) := by
  simp only [locate, h, dite_true]

theorem locate_cid {loc : Loc} (h : 0x050 ≤ loc.toNat ∧ loc.toNat ≤ 0x05F) :
    locate loc = some (.cid ⟨loc.toNat - 0x050, by omega⟩) := by
  unfold locate
  simp (disch := omega) only [dif_neg, if_neg, dif_pos]

theorem locate_srcName {loc : Loc} (h : 0x080 ≤ loc.toNat ∧ loc.toNat ≤ 0x0BF) :
    locate loc = some (.srcName ⟨loc.toNat - 0x080, by omega⟩) := by
  unfold locate
  simp (disch := omega) only [dif_neg, if_neg, dif_pos]

theorem locate_slot {loc : Loc} (h : 0x200 ≤ loc.toNat ∧ loc.toNat ≤ 0x3FF) :
    locate loc = some (.slot ⟨loc.toNat - 0x200, by omega⟩) := by
  unfold locate
  simp (disch := omega) only [dif_neg, if_neg, dif_pos]

theorem locate_uList {loc : Loc} (h : 0x400 ≤ loc.toNat ∧ loc.toNat ≤ 0x5FF) :
    locate loc = some (.uList ⟨loc.toNat - 0x400, by omega⟩) := by
  unfold locate
  simp (disch := omega) only [dif_neg, if_neg, dif_pos]

theorem locate_out {loc : Loc} (h : 0x800 ≤ loc.toNat ∧ loc.toNat ≤ 0xC77) :
    locate loc = some (.out ⟨loc.toNat - 0x800, by omega⟩) := by
  unfold locate
  simp (disch := omega) only [dif_neg, if_neg, dif_pos]

theorem locate_unmapped {loc : Loc} (h : unmapped loc.toNat) : locate loc = none := by
  have := loc.isLt
  unfold unmapped at h
  unfold locate
  simp (disch := omega) only [dif_neg, if_neg]

/-- The location of an element (20_memory.md R61). -/
def elementAddr : Element → Nat
  | .stg i => i.val
  | .univ => 0x040
  | .slotCnt => 0x041
  | .uCnt => 0x042
  | .page => 0x043
  | .lastPage => 0x044
  | .priority => 0x048
  | .nameLen => 0x049
  | .status => 0x04A
  | .outLen => 0x04B
  | .flRes => 0x04C
  | .cid i => 0x050 + i.val
  | .srcName i => 0x080 + i.val
  | .slot i => 0x200 + i.val
  | .uList i => 0x400 + i.val
  | .out i => 0x800 + i.val

/-- The map sends a location to the element that lives there. -/
theorem locate_sound {loc : Loc} {e : Element} (h : locate loc = some e) :
    loc.toNat = elementAddr e := by
  by_cases hu : unmapped loc.toNat
  · rw [locate_unmapped hu] at h; cases h
  unfold unmapped at hu
  by_cases h1 : loc.toNat < 0x040
  · rw [locate_stg h1] at h; cases h; rfl
  by_cases h2 : 0x050 ≤ loc.toNat ∧ loc.toNat ≤ 0x05F
  · rw [locate_cid h2] at h; cases h; simp only [elementAddr]; omega
  by_cases h3 : 0x080 ≤ loc.toNat ∧ loc.toNat ≤ 0x0BF
  · rw [locate_srcName h3] at h; cases h; simp only [elementAddr]; omega
  by_cases h4 : 0x200 ≤ loc.toNat ∧ loc.toNat ≤ 0x3FF
  · rw [locate_slot h4] at h; cases h; simp only [elementAddr]; omega
  by_cases h5 : 0x400 ≤ loc.toNat ∧ loc.toNat ≤ 0x5FF
  · rw [locate_uList h5] at h; cases h; simp only [elementAddr]; omega
  by_cases h6 : 0x800 ≤ loc.toNat ∧ loc.toNat ≤ 0xC77
  · rw [locate_out h6] at h; cases h; simp only [elementAddr]; omega
  have single : ∀ k : Fin 13,
      ((locate (BitVec.ofNat 12 (0x040 + k.val))).map elementAddr).getD (0x040 + k.val)
        = 0x040 + k.val := by decide
  have hk := single ⟨loc.toNat - 0x040, by omega⟩
  have hl : BitVec.ofNat 12 (0x040 + (loc.toNat - 0x040)) = loc := by
    rw [Nat.add_sub_cancel' (by omega), BitVec.ofNat_toNat, BitVec.setWidth_eq]
  simp only [hl, h, Option.map_some, Option.getD_some] at hk
  omega

/-- No two locations hold the same element. -/
theorem locate_inj {l l' : Loc} {e : Element} (h : locate l = some e) (h' : locate l' = some e) :
    l = l' :=
  BitVec.eq_of_toNat_eq ((locate_sound h).trans (locate_sound h').symm)

/-- A write to one element leaves what every other element reads as. -/
theorem readElement_writeElement_ne {e e' : Element} (h : e' ≠ e) (v : Half) (s : State) :
    readElement e' (writeElement e v s) = readElement e' s := by
  cases e <;> cases e' <;>
    first
    | rfl
    | exact absurd rfl h
    | (simp only [readElement, writeElement]
       rw [Buf.get_set_ne _ (fun hij => h (congrArg _ (Fin.ext hij)))])

/-- What a host write can do: an element of the operand group changes, and nothing else does
(10_state.md R42, the column "host WR"). -/
theorem hostWrite_frame (loc : Loc) (v : Half) (s : State) :
    hostWrite loc v s =
      { s with
        stg := (hostWrite loc v s).stg
        univ := (hostWrite loc v s).univ
        slotCnt := (hostWrite loc v s).slotCnt
        uCnt := (hostWrite loc v s).uCnt
        page := (hostWrite loc v s).page
        lastPage := (hostWrite loc v s).lastPage
        slot := (hostWrite loc v s).slot
        uList := (hostWrite loc v s).uList } := by
  unfold hostWrite
  split
  · rename_i e _
    cases e <;> rfl
  · rfl

end Sys2Proof.Machine
end

