-- ==== Sys2Proof/Laws/Step.lean ====
section
/-! SUPPORT. What a step can do, said once, and how a run of several actions splits. -/

namespace Sys2Proof.Machine

theorem step_idle {s : State} (h : s.host = []) : step s = .next s := by simp [step, h]

theorem step_action {s : State} {a : HostAction} {rest : List HostAction} (h : s.host = a :: rest) :
    step s = perform a (takeAction rest s) := by
  simp [step, h]

/-- A command step runs the decoded command, or completes with `E_ILLEGAL`. -/
theorem perform_cmd_cases {s t : State} {w : CmdWord} (h : perform (.cmd w) s = .next t) :
    (∃ i, decode w = .ok i ∧ exec i s = .next t)
      ∨ (decode w = .error .illegal ∧ t = raiseError false .illegal s) := by
  simp only [perform, hostCommand] at h
  cases hd : decode w with
  | ok i => rw [hd] at h; exact .inl ⟨i, rfl, h⟩
  | error c =>
    rw [hd] at h
    obtain rfl := (decode_error_iff w c).mp hd |>.1
    injection h with h
    exact .inr ⟨rfl, h.symm⟩

/-- The inversion of `step`: nothing to do, a command, a write, a read or a reset. -/
theorem step_cases {s t : State} (h : step s = .next t) :
    (s.host = [] ∧ t = s) ∨ ∃ rest,
      (∃ w i, s.host = .cmd w :: rest ∧ decode w = .ok i ∧ exec i (takeAction rest s) = .next t)
      ∨ (∃ w, s.host = .cmd w :: rest ∧ decode w = .error .illegal
          ∧ t = raiseError false .illegal (takeAction rest s))
      ∨ (∃ loc v, s.host = .wr loc v :: rest ∧ t = hostWrite loc v (takeAction rest s))
      ∨ (∃ loc, s.host = .rd loc :: rest ∧ t = hostRead loc (takeAction rest s))
      ∨ (s.host = .reset :: rest ∧ t = hostReset (takeAction rest s)) := by
  cases hh : s.host with
  | nil =>
    rw [step_idle hh] at h
    injection h with h
    exact .inl ⟨rfl, h.symm⟩
  | cons a rest =>
    rw [step_action hh] at h
    refine .inr ⟨rest, ?_⟩
    cases a with
    | cmd w =>
      obtain ⟨i, hd, hx⟩ | ⟨hd, rfl⟩ := perform_cmd_cases h
      · exact .inl ⟨w, i, rfl, hd, hx⟩
      · exact .inr (.inl ⟨w, rfl, hd, rfl⟩)
    | wr loc v => injection h with h; exact .inr (.inr (.inl ⟨loc, v, rfl, h.symm⟩))
    | rd loc => injection h with h; exact .inr (.inr (.inr (.inl ⟨loc, rfl, h.symm⟩)))
    | reset => injection h with h; exact .inr (.inr (.inr (.inr ⟨rfl, h.symm⟩)))

/-- A run of `m + n` steps is a run of `m` steps and then one of `n`. -/
theorem run_add {m n : Nat} {s t : State} (h : core.run m s = .next t) :
    core.run (m + n) s = core.run n t := by
  induction m generalizing s with
  | zero =>
    injection h with h
    rw [Nat.zero_add, h]
  | succ m ih =>
    rw [Nat.succ_add]
    simp only [Host.Core.run] at h ⊢
    cases hs : core.step s with
    | next u => rw [hs] at h; exact ih h
    | fault r => rw [hs] at h; cases h
    | refused r => rw [hs] at h; cases h

/-- A run of one more step, when the first step is known. -/
theorem run_succ {n : Nat} {s u : State} (h : step s = .next u) :
    core.run (n + 1) s = core.run n u := by
  have : core.step s = .next u := h
  simp only [Host.Core.run, this]

end Sys2Proof.Machine
end

