-- ==== Sys2Proof/Laws/Run.lean ====
section
/-! SUPPORT. What a run of consecutive host writes leaves in the buffer they fill. -/

namespace Sys2Proof.Machine

/-- The state after the writes `writesFrom base vs`, their actions taken off the port. -/
def afterWrites : Nat → List Half → State → State
  | _, [], s => s
  | base, v :: vs, s => afterWrites (base + 1) vs (hostWrite (BitVec.ofNat 12 base) v s)

/-- A host write does not look at what the host does next. -/
theorem hostWrite_takeAction (loc : Loc) (v : Half) (rest : List HostAction) (s : State) :
    hostWrite loc v (takeAction rest s) = takeAction rest (hostWrite loc v s) := by
  unfold hostWrite
  split
  · rename_i e _
    cases e <;> rfl
  · rfl

/-- Writes at the head of the port are performed one a step. -/
theorem run_writesFrom (base : Nat) (vs : List Half) (rest : List HostAction) (s : State) :
    core.run vs.length (takeAction (writesFrom base vs ++ rest) s)
      = .next (takeAction rest (afterWrites base vs s)) := by
  induction vs generalizing base s with
  | nil => rfl
  | cons v vs ih =>
    rw [List.length_cons, run_succ (u := takeAction (writesFrom (base + 1) vs ++ rest)
      (hostWrite (BitVec.ofNat 12 base) v s))]
    · exact ih _ _
    · rw [step_action rfl]
      simp only [perform, hostWrite_takeAction]
      rfl

/-- A run of writes and then of a list of other actions. -/
theorem run_writesFrom_append (base : Nat) (vs : List Half) (rest : List HostAction) (s : State) :
    core.run (writesFrom base vs ++ rest).length (takeAction (writesFrom base vs ++ rest) s)
      = core.run rest.length (takeAction rest (afterWrites base vs s)) := by
  have hl : ∀ (b : Nat) (us : List Half), (writesFrom b us).length = us.length := by
    intro b us
    induction us generalizing b with
    | nil => rfl
    | cons u us ih => simp only [writesFrom, List.length_cons, ih]
  rw [List.length_append, hl, run_add (run_writesFrom base vs rest s)]

theorem toNat_loc {a : Nat} (h : a < 4096) : (BitVec.ofNat 12 a).toNat = a := by
  rw [BitVec.toNat_ofNat]
  exact Nat.mod_eq_of_lt h

/-- Writes that stay in the staging buffer change the bytes written and nothing else. -/
theorem afterWrites_stg (base : Nat) (vs : List Half) (s : State) (h : base + vs.length ≤ 64) :
    afterWrites base vs s = { s with stg := (afterWrites base vs s).stg }
      ∧ ∀ i < 64, (afterWrites base vs s).stg.get i =
          if base ≤ i ∧ i < base + vs.length then (vs.getD (i - base) 0).extractLsb' 0 8
          else s.stg.get i := by
  induction vs generalizing base s with
  | nil => exact ⟨rfl, fun i _ => by simp only [List.length_nil]; rw [if_neg (by omega)]; rfl⟩
  | cons v vs ih =>
    rw [List.length_cons] at h
    have hb : (BitVec.ofNat 12 base).toNat = base := toNat_loc (by omega)
    have hw : hostWrite (BitVec.ofNat 12 base) v s
        = { s with stg := s.stg.set base (v.extractLsb' 0 8) } := by
      unfold hostWrite
      rw [locate_stg (by omega)]
      simp only [writeElement, hb]
    obtain ⟨h1, h2⟩ := ih (base + 1) (hostWrite (BitVec.ofNat 12 base) v s) (by omega)
    refine ⟨?_, fun i hi => ?_⟩
    · simp only [afterWrites]
      rw [h1, hw]
    · simp only [afterWrites]
      rw [h2 i hi, hw, List.length_cons]
      rcases Nat.lt_trichotomy i base with hlt | rfl | hgt
      · rw [if_neg (by omega), if_neg (by omega), Buf.get_set_ne _ (by omega)]
      · rw [if_neg (by omega), if_pos (by omega), Buf.get_set_self _ hi, Nat.sub_self,
          List.getD_cons_zero]
      · obtain ⟨k, rfl⟩ : ∃ k, i = base + 1 + k := ⟨i - (base + 1), by omega⟩
        rw [show base + 1 + k - (base + 1) = k by omega, show base + 1 + k - base = k + 1 by omega,
          List.getD_cons_succ, Buf.get_set_ne _ (by omega)]
        exact if_congr (by omega) rfl rfl

/-- Writes that stay in the slot buffer change the slots written and nothing else. -/
theorem afterWrites_slot (k : Nat) (vs : List Half) (s : State) (h : k + vs.length ≤ 512) :
    afterWrites (0x200 + k) vs s = { s with slot := (afterWrites (0x200 + k) vs s).slot }
      ∧ ∀ i < 512, (afterWrites (0x200 + k) vs s).slot.get i =
          if k ≤ i ∧ i < k + vs.length then (vs.getD (i - k) 0).extractLsb' 0 8
          else s.slot.get i := by
  induction vs generalizing k s with
  | nil => exact ⟨rfl, fun i _ => by simp only [List.length_nil]; rw [if_neg (by omega)]; rfl⟩
  | cons v vs ih =>
    rw [List.length_cons] at h
    have hb : (BitVec.ofNat 12 (0x200 + k)).toNat = 0x200 + k := toNat_loc (by omega)
    have hw : hostWrite (BitVec.ofNat 12 (0x200 + k)) v s
        = { s with slot := s.slot.set k (v.extractLsb' 0 8) } := by
      unfold hostWrite
      rw [locate_slot (by omega)]
      simp only [writeElement, hb, Nat.add_sub_cancel_left]
    obtain ⟨h1, h2⟩ := ih (k + 1) (hostWrite (BitVec.ofNat 12 (0x200 + k)) v s) (by omega)
    refine ⟨?_, fun i hi => ?_⟩
    · simp only [afterWrites]
      rw [Nat.add_assoc, h1, hw]
    · simp only [afterWrites]
      rw [Nat.add_assoc, h2 i hi, hw, List.length_cons]
      rcases Nat.lt_trichotomy i k with hlt | rfl | hgt
      · rw [if_neg (by omega), if_neg (by omega), Buf.get_set_ne _ (by omega)]
      · rw [if_neg (by omega), if_pos (by omega), Buf.get_set_self _ hi, Nat.sub_self,
          List.getD_cons_zero]
      · obtain ⟨j, rfl⟩ : ∃ j, i = k + 1 + j := ⟨i - (k + 1), by omega⟩
        rw [show k + 1 + j - (k + 1) = j by omega, show k + 1 + j - k = j + 1 by omega,
          List.getD_cons_succ, Buf.get_set_ne _ (by omega)]
        exact if_congr (by omega) rfl rfl

/-- Writes that stay in the universe list change the entries written and nothing else. -/
theorem afterWrites_uList (k : Nat) (vs : List Half) (s : State) (h : k + vs.length ≤ 512) :
    afterWrites (0x400 + k) vs s = { s with uList := (afterWrites (0x400 + k) vs s).uList }
      ∧ ∀ i < 512, (afterWrites (0x400 + k) vs s).uList.get i =
          if k ≤ i ∧ i < k + vs.length then vs.getD (i - k) 0 else s.uList.get i := by
  induction vs generalizing k s with
  | nil => exact ⟨rfl, fun i _ => by simp only [List.length_nil]; rw [if_neg (by omega)]; rfl⟩
  | cons v vs ih =>
    rw [List.length_cons] at h
    have hb : (BitVec.ofNat 12 (0x400 + k)).toNat = 0x400 + k := toNat_loc (by omega)
    have hw : hostWrite (BitVec.ofNat 12 (0x400 + k)) v s = { s with uList := s.uList.set k v } := by
      unfold hostWrite
      rw [locate_uList (by omega)]
      simp only [writeElement, hb, Nat.add_sub_cancel_left]
    obtain ⟨h1, h2⟩ := ih (k + 1) (hostWrite (BitVec.ofNat 12 (0x400 + k)) v s) (by omega)
    refine ⟨?_, fun i hi => ?_⟩
    · simp only [afterWrites]
      rw [Nat.add_assoc, h1, hw]
    · simp only [afterWrites]
      rw [Nat.add_assoc, h2 i hi, hw, List.length_cons]
      rcases Nat.lt_trichotomy i k with hlt | rfl | hgt
      · rw [if_neg (by omega), if_neg (by omega), Buf.get_set_ne _ (by omega)]
      · rw [if_neg (by omega), if_pos (by omega), Buf.get_set_self _ hi, Nat.sub_self,
          List.getD_cons_zero]
      · obtain ⟨j, rfl⟩ : ∃ j, i = k + 1 + j := ⟨i - (k + 1), by omega⟩
        rw [show k + 1 + j - (k + 1) = j by omega, show k + 1 + j - k = j + 1 by omega,
          List.getD_cons_succ, Buf.get_set_ne _ (by omega)]
        exact if_congr (by omega) rfl rfl

/-- A byte written as an 8-bit location's value is stored whole (20_memory.md R63). -/
theorem extractLsb'_asValues (bs : List Byte) (i : Nat) :
    ((asValues bs).getD i 0).extractLsb' 0 8 = bs.getD i 0 := by
  simp only [asValues, List.getD_eq_getElem?_getD, List.getElem?_map]
  cases bs[i]? with
  | none => rfl
  | some b =>
    simp only [Option.map_some, Option.getD_some]
    apply BitVec.eq_of_toNat_eq
    simpa using b.isLt

end Sys2Proof.Machine
end

