-- ==== Sys2Proof/Tests/Slice0.lean ====
section
/-! SUPPORT. The model's own tests, and a witness for every statement that has hypotheses.

Expected values are 95_test_vectors.md's (the `V` numbers) or the rule's named beside the test, never
the model's own answer. A `witness_` theorem shows values that meet the hypotheses of the statement it
is named after. -/

open Sys2Proof Sys2Proof.Machine

namespace Sys2Proof.Tests

-- One theorem at a time: many small kernel evaluations at once would ask for many thread stacks.
set_option Elab.async false

/-! ## Small states -/

/-- A buffer that begins with the values given and is 0 from there on. -/
def bufOf {w n : Nat} (vs : List (BitVec w)) : Buf w n := (Buf.zero w n).overwrite vs

/-- `n` bytes of a buffer from offset `off` on. -/
def slice (o : Buf 8 1144) (off n : Nat) : List Byte := (o.cells.drop off).take n

/-- The standard set-up `S0` of 95_test_vectors.md. -/
def s0 : State :=
  { State.reset with
    cid := bufOf [0, 1, 2, 3, 4, 5, 6, 7, 8, 9, 10, 11, 12, 13, 14, 15]
    srcName := bufOf [0x65, 0x31, 0x33, 0x31]
    nameLen := 4
    stg := bufOf [0x65, 0x31, 0x33, 0x31, 4, 5, 6, 7, 8, 9, 10, 11, 12, 13, 14, 15]
    status := 0x01 }

/-- The set-up of V20: a universe whose slot `i` holds `i mod 256`. -/
def v20 : State := { s0 with slot := Buf.build (BitVec.ofNat 8), univ := 1, slotCnt := 512 }

/-- The set-up of V30, with any list. -/
def listing (us : List Half) (count : Half) : State := { s0 with uList := bufOf us, uCnt := count }

/-- A decidable property of every value of a list (an instance search over `∀ v ∈ l` would enumerate the
values' type). -/
abbrev allOf {α : Type} (l : List α) (p : α → Prop) [DecidablePred p] : Prop :=
  l.all (fun v => decide (p v)) = true

/-- `S0` with one host action to perform. -/
def asked (a : HostAction) : State := { s0 with host := [a] }

/-! ## Decoding: words written out from 30_encoding.md R91 to R93 -/

/-- Format I, `op` 0x01, 56 zero bits. -/
theorem test_decode_setcid :
    decode 0b0000000100000000000000000000000000000000000000000000000000000000 = .ok .setcid := by decide
/-- Format I, `op` 0x02, forty zeros, `imm` 63 (V4). -/
theorem test_decode_setname : decode 0x020000000000003F = .ok (.setname 63) := by decide
/-- Format I, `op` 0x03, `imm` 65535 (V5). -/
theorem test_decode_setpri : decode 0x030000000000FFFF = .ok (.setpri 0xFFFF) := by decide
/-- Format P, `op` 0x10, `opt` 0xA5, `seq` 0x3C, `sync` 0x8001: no two fields alike. -/
theorem test_decode_data : decode 0x10A53C8001000000 = .ok (.data 0x8001 0x3C 0xA5) := by decide
/-- Format P, `op` 0x11, `seq` 42, `sync` 7 (V8). -/
theorem test_decode_sync : decode 0x11002A0007000000 = .ok (.sync 7 42) := by decide
/-- Format P, `op` 0x12, `seq` 255 (V19a). -/
theorem test_decode_disc : decode 0x1200FF0000000000 = .ok (.disc 255) := by decide
/-- Format I, `op` 0x20, `imm` 523 (V22). -/
theorem test_decode_flen : decode 0x200000000000020B = .ok (.flen 523) := by decide
/-- V11 to V19 and V19b: the words no row matches. -/
theorem test_decode_illegal :
    allOf [0x0000000000000000, 0xFFFFFFFFFFFFFFFF, 0x0400000000000000, 0x0100000000000001,
        0x0200000000010004, 0x1000000000000001, 0x1180000000000000, 0x1200000001000000,
        0x12FF000000000000, 0x2100000000000000] (fun w => decode w = .error .illegal) := by decide +kernel
/-- The examples of 30_encoding.md R97, encoded. -/
theorem test_encode_examples :
    encode (.data 0 1 0x40) = 0x1040010000000000 ∧ encode (.sync 7 42) = 0x11002A0007000000 := by decide
/-- A table row's match word, numbered as the table numbers it, and a word longer than a command. -/
theorem test_decodeTableWord :
    decodeTableWord 64 0x1200000000000000 = some (.disc 0) ∧ decodeTableWord 64 0 = none
      ∧ decodeTableWord 72 0x011200000000000000 = none := by decide

/-! ## Well-formed words: each check refuses an ill-formed word -/

/-- An undefined opcode (R95). -/
theorem test_wellFormed_opcode :
    wellFormedWord 0x0000000000000000 = false ∧ wellFormedWord 0x2100000000000000 = false := by decide
/-- Format P's `zero` field, at both its ends (R91). -/
theorem test_wellFormed_zero_packet :
    wellFormedWord 0x1000000000000001 = false ∧ wellFormedWord 0x1000000000800000 = false := by decide
/-- Format I's `zero` field, at both its ends (R93). -/
theorem test_wellFormed_zero_immediate :
    wellFormedWord 0x0200000000010004 = false ∧ wellFormedWord 0x2080000000000000 = false := by decide
/-- `SETCID` with an `imm` (R92). -/
theorem test_wellFormed_setcid_imm : wellFormedWord 0x0100000000000001 = false := by decide
/-- `SYNC` with an `opt` (R92). -/
theorem test_wellFormed_sync_opt : wellFormedWord 0x1180000000000000 = false := by decide
/-- `DISC` with an `opt`, and with a `sync` (R92). -/
theorem test_wellFormed_disc_operands :
    wellFormedWord 0x12FF000000000000 = false ∧ wellFormedWord 0x1200000001000000 = false := by decide
/-- A word of each command. -/
theorem test_wellFormed_accepts :
    allOf [0x0100000000000000, 0x020000000000FFFF, 0x030000000000FFFF, 0x10FFFFFFFF000000,
        0x1100FFFFFF000000, 0x1200FF0000000000, 0x200000000000FFFF] (fun w => wellFormedWord w = true) := by decide +kernel

/-! ## Commands -/

/-- V27: `SETCID` over the name still staged. -/
theorem test_setcid : ∃ t, exec .setcid { s0 with stg := s0.stg.set 0 0xAA } = .next t
    ∧ t.cid.cells = [0xaa, 0x31, 0x33, 0x31, 4, 5, 6, 7, 8, 9, 10, 11, 12, 13, 14, 15]
    ∧ t.status = 0x01 := ⟨_, rfl, by decide +kernel⟩
/-- V29: `SETNAME 6` takes six staged bytes. -/
theorem test_setname : ∃ t, exec (.setname 6) s0 = .next t ∧ t.nameLen = 6
    ∧ t.srcName.cells = [0x65, 0x31, 0x33, 0x31, 4, 5] ++ List.replicate 58 0 := ⟨_, rfl, by decide +kernel⟩
/-- V28: a shorter name clears the longer one's tail. -/
theorem test_setname_short : ∃ t, exec (.setname 1) s0 = .next t ∧ t.nameLen = 1
    ∧ t.srcName.cells = 0x65 :: List.replicate 63 0 := ⟨_, rfl, by decide +kernel⟩
/-- V5: the accepted end, 200. -/
theorem test_setpri : exec (.setpri 200) s0 = .next { s0 with priority := 0xC8, status := 0x01 } := rfl
/-- V29b: 256 is refused, not reduced to 0. -/
theorem test_setpri_refused : exec (.setpri 256) s0 = .next { s0 with status := 0x22 } := rfl
/-- V31: the fields between the two headers, and the slots' ends. -/
theorem test_data : ∃ t, exec (.data 65535 255 0xFF) { v20 with priority := 200, univ := 63999 } = .next t
    ∧ t.status = 0x01 ∧ t.outLen = 638
    ∧ slice t.out 16 6 = [0x72, 0x6e, 0, 0, 0, 4] ∧ slice t.out 38 6 = [0x72, 0x58, 0, 0, 0, 2]
    ∧ slice t.out 108 7 = [0xc8, 0xff, 0xff, 0xff, 0xe0, 0xf9, 0xff]
    ∧ slice t.out 115 13 = [0x72, 0x0b, 0x02, 0xa1, 0, 0, 0, 1, 2, 1, 0, 0, 1]
    ∧ slice t.out 636 3 = [0xfe, 0xff, 0x00] := ⟨_, rfl, by decide +kernel⟩
/-- V38: the slot count is checked before the universe number. -/
theorem test_data_order : exec (.data 0 1 0) { v20 with slotCnt := 0, univ := 0 }
    = .next { v20 with slotCnt := 0, univ := 0, status := 0x32, outLen := 0 } := rfl
/-- V8: a synchronization packet, every byte. -/
theorem test_sync : ∃ t, exec (.sync 7 42) s0 = .next t ∧ t.status = 0x01 ∧ t.outLen = 49
    ∧ slice t.out 0 49 = [0x00, 0x10, 0, 0, 0x41, 0x53, 0x43, 0x2d, 0x45, 0x31, 0x2e, 0x31, 0x37, 0, 0, 0,
        0x70, 0x21, 0, 0, 0, 8, 0, 1, 2, 3, 4, 5, 6, 7, 8, 9, 10, 11, 12, 13, 14, 15,
        0x70, 0x0b, 0, 0, 0, 1, 0x2a, 0, 7, 0, 0] := ⟨_, rfl, by decide +kernel⟩
/-- V46: sorted with a duplicate kept, the page numbers unchecked. -/
theorem test_disc : ∃ t, exec (.disc 0) { listing [3, 1, 3] 3 with page := 2, lastPage := 1 } = .next t
    ∧ t.outLen = 126 ∧ slice t.out 16 2 = [0x70, 0x6e] ∧ slice t.out 38 2 = [0x70, 0x58]
    ∧ slice t.out 108 18 = [0, 0, 0, 0, 0x70, 0x0e, 0, 0, 0, 1, 2, 1, 0, 1, 0, 3, 0, 3]
    ∧ t.uList = bufOf [3, 1, 3] := ⟨_, rfl, by decide +kernel⟩
/-- V53: the count is checked before any entry. -/
theorem test_disc_order : exec (.disc 0) (listing [0] 600)
    = .next { listing [0] 600 with status := 0x52, outLen := 0 } := rfl
/-- V23: the largest length. -/
theorem test_flen : exec (.flen 4095) s0 = .next { s0 with flRes := 0x7FFF, status := 0x01 } := rfl
/-- V24: one more is refused, and `FLRES` keeps its value. -/
theorem test_flen_refused : exec (.flen 4096) { s0 with flRes := 0x7FFF }
    = .next { s0 with flRes := 0x7FFF, status := 0x62 } := rfl

/-! ## Host actions -/

/-- V10: the priority after reset. -/
theorem test_reset_priority : readLoc 0x048 State.reset = 0x0064 := by decide +kernel
/-- V55: an 8-bit location takes the low byte. -/
theorem test_wr_page : step { State.reset with host := [.wr 0x043 0x1234] }
    = .next { State.reset with page := 0x34 } := rfl
/-- V57, V29c: writes to an unmapped and to a read-only location are dropped. -/
theorem test_wr_dropped : step (asked (.wr 0x045 0xBEEF)) = .next s0 ∧ step (asked (.wr 0x048 5)) = .next s0 :=
  ⟨rfl, rfl⟩
/-- V62: the last universe entry, and the location past it. -/
theorem test_rd_uList_end :
    readLoc 0x5FF (hostWrite 0x5FF 0x00AB State.reset) = 0x00AB
      ∧ readLoc 0x600 (hostWrite 0x5FF 0x00AB State.reset) = 0x0000 := by decide +kernel
/-- V64: the identity is read back. -/
theorem test_rd_identity : readLoc 0x05F s0 = 15 ∧ readLoc 0x049 s0 = 4 ∧ readLoc 0x080 s0 = 0x65
    ∧ readLoc 0x084 s0 = 0 := by decide +kernel
/-- A read goes to the host and changes no element (R64). -/
theorem test_rd_returns : step (asked (.rd 0x049)) = .next { s0 with returned := [4] } := rfl
/-- V16: an illegal word of `DATA`'s opcode leaves `OUTLEN` alone (R95). -/
theorem test_illegal : step (asked (.cmd 0x1000000000000001)) = .next { s0 with status := 0x72 } := rfl
/-- `RESET` of a configured block (R260). -/
theorem test_reset : step { v20 with host := [.reset] } = .next State.reset := rfl
/-- A command word placed as the host's next action runs on the very next step, from reset: V39's kind
of start, with the priority of P1. -/
theorem test_withFetchWord : step (State.reset.withFetchWord 64 0x0300000000000096)
    = .next { State.reset with priority := 150, status := 0x01 } := rfl

/-! ## Witnesses: values that meet the hypotheses of each statement that has some -/

theorem witness_EncodeOfDecode : decode 0x1200990000000000 = .ok (.disc 0x99) := by decide +kernel
/-- A word of every row, and the row it matches. -/
theorem witness_OpcodeMapDecides :
    [0x0100000000000000, 0x020000000000FFFF, 0x0300000000000096, 0x10FFFFFFFF000000, 0x11002A0007000000,
      0x1200FF0000000000, 0x2000000000000FFF].map (fun w => (opcodeMap.filter (matchesRow w)).map (·.mnemonic))
      = [["SETCID"], ["SETNAME"], ["SETPRI"], ["DATA"], ["SYNC"], ["DISC"], ["FLEN"]] := by decide +kernel
theorem witness_OpcodeMapDecides_decodes : decode 0x0300000000000096 = .ok (.setpri 150) := by decide +kernel
/-- Each disjunct of the list of illegal words, at a word that meets it alone. -/
theorem witness_IllegalWords_words :
    (0x2100000000000000#64).extractLsb' 56 8 = 0x21#8 ∧ (0x0100000000000001#64).extractLsb' 0 56 ≠ 0#56
      ∧ (0x0200000000010004#64).extractLsb' 16 40 ≠ 0#40 ∧ (0x1000000000000001#64).extractLsb' 0 24 ≠ 0#24
      ∧ (0x1180000000000000#64).extractLsb' 48 8 ≠ 0#8 ∧ (0x1200000001000000#64).extractLsb' 24 16 ≠ 0#16 := by
  decide +kernel
theorem witness_IllegalWords :
    decode 0x1180000000000000 = .error .illegal
      ∧ (asked (.cmd 0x1180000000000000)).host = .cmd 0x1180000000000000 :: [] := ⟨by decide +kernel, rfl⟩
theorem witness_StepRunsDecodedCommand :
    (asked (.cmd 0x11002A0007000000)).host = .cmd 0x11002A0007000000 :: []
      ∧ decode 0x11002A0007000000 = .ok (.sync 7 42) := ⟨rfl, by decide +kernel⟩
theorem witness_ActionsApplyInOrder :
    s0.host = [] ∧ (asked (.rd 0x048)).host = .rd 0x048 :: [] ∧ (asked .reset).host = .reset :: []
      ∧ ∀ loc, HostAction.reset ≠ .rd loc := ⟨rfl, rfl, rfl, fun _ h => nomatch h⟩
theorem witness_ResetGivesEveryResetValue : { v20 with host := [.reset] }.host = .reset :: [] := rfl
/-- Both ends of every range of the location map that a write tells apart. -/
theorem witness_HostWriteStores :
    (∀ (l : Loc) (v : Half), (asked (.wr l v)).host = .wr l v :: [])
      ∧ allOf [0x000, 0x03F] (fun l : Loc => l.toNat < 0x040)
      ∧ allOf [0x200, 0x3FF] (fun l : Loc => 0x200 ≤ l.toNat ∧ l.toNat ≤ 0x3FF)
      ∧ allOf [0x400, 0x5FF] (fun l : Loc => 0x400 ≤ l.toNat ∧ l.toNat ≤ 0x5FF)
      ∧ allOf [0x045, 0x1FF, 0x600, 0xFFF]
          (fun l : Loc => (0x045 ≤ l.toNat ∧ l.toNat ≤ 0x1FF) ∨ 0x600 ≤ l.toNat) :=
  ⟨fun _ _ => rfl, by decide +kernel, by decide +kernel, by decide +kernel, by decide +kernel⟩
/-- Both ends of every range of the location map that a read tells apart. -/
theorem witness_HostReadReturns :
    (∀ l : Loc, (asked (.rd l)).host = .rd l :: [])
      ∧ allOf [0x050, 0x05F] (fun l : Loc => 0x050 ≤ l.toNat ∧ l.toNat ≤ 0x05F)
      ∧ allOf [0x080, 0x0BF] (fun l : Loc => 0x080 ≤ l.toNat ∧ l.toNat ≤ 0x0BF)
      ∧ allOf [0x800, 0xC77] (fun l : Loc => 0x800 ≤ l.toNat ∧ l.toNat ≤ 0xC77)
      ∧ allOf [0x045, 0x047, 0x04D, 0x04F, 0x060, 0x07F, 0x0C0, 0x1FF, 0x600, 0x7FF, 0xC78, 0xFFF]
          (fun l : Loc => (0x045 ≤ l.toNat ∧ l.toNat ≤ 0x047) ∨ (0x04D ≤ l.toNat ∧ l.toNat ≤ 0x04F)
          ∨ (0x060 ≤ l.toNat ∧ l.toNat ≤ 0x07F) ∨ (0x0C0 ≤ l.toNat ∧ l.toNat ≤ 0x1FF)
          ∨ (0x600 ≤ l.toNat ∧ l.toNat ≤ 0x7FF) ∨ 0xC78 ≤ l.toNat) :=
  ⟨fun _ => rfl, by decide +kernel, by decide +kernel, by decide +kernel, by decide +kernel⟩
/-- The reads those ranges' ends give: the fixed-width columns of 20_memory.md R61, in `S0` after V20. -/
theorem witness_HostReadReturns_values :
    [0x000, 0x03F, 0x040, 0x041, 0x048, 0x04A, 0x050, 0x05F, 0x080, 0x0BF, 0x200, 0x3FF, 0x600, 0xC78].map
        (fun l : Loc => readLoc l v20)
      = [0x65, 0, 1, 512, 100, 1, 0, 15, 0x65, 0, 0, 0xFF, 0, 0] := by decide +kernel
theorem witness_ReadAfterWrite :
    allOf [0x000, 0x03F, 0x043, 0x044, 0x200, 0x3FF] (fun l : Loc =>
        l.toNat < 0x040 ∨ l.toNat = 0x043 ∨ l.toNat = 0x044 ∨ (0x200 ≤ l.toNat ∧ l.toNat ≤ 0x3FF))
      ∧ allOf [0x040, 0x042, 0x400, 0x5FF] (fun l : Loc =>
        (0x040 ≤ l.toNat ∧ l.toNat ≤ 0x042) ∨ (0x400 ≤ l.toNat ∧ l.toNat ≤ 0x5FF))
      ∧ allOf [0x045, 0x1FF, 0x600, 0xFFF]
        (fun l : Loc => (0x045 ≤ l.toNat ∧ l.toNat ≤ 0x1FF) ∨ 0x600 ≤ l.toNat)
      ∧ (0x041 : Loc) ≠ 0x040 := ⟨by decide +kernel, by decide +kernel, by decide +kernel, by decide +kernel⟩
theorem witness_FlagsAndLengthValue : 4095 < 4096 ∧ 4095 ≤ 4095 ∧ 0 ≤ 4095 := by decide +kernel
theorem witness_PduLengths : 0 ≤ 512 ∧ 512 ≤ 512 := by decide +kernel
theorem witness_FlenCommand :
    (0 : Half).toNat ≤ 4095 ∧ (4095 : Half).toNat ≤ 4095 ∧ 4095 < (4096 : Half).toNat
      ∧ 4095 < (65535 : Half).toNat := by decide +kernel
theorem witness_SetnameCommand :
    allOf [1, 63] (fun n : Half => 1 ≤ n.toNat ∧ n.toNat ≤ 63)
      ∧ allOf [0, 64, 65535] (fun n : Half => n.toNat = 0 ∨ 64 ≤ n.toNat) := by decide +kernel
theorem witness_SetpriCommand :
    allOf [0, 200] (fun p : Half => p.toNat ≤ 200) ∧ allOf [201, 65535] (fun p : Half => 200 < p.toNat) := by decide +kernel
/-- Both ends of the accepted lengths, in a state with bytes staged. -/
theorem witness_NameIsReadBack :
    (∃ t, exec (.setname 1) s0 = .next t ∧ readLoc 0x080 t = 0x65 ∧ readLoc 0x081 t = 0)
      ∧ ∃ t, exec (.setname 63) s0 = .next t ∧ readLoc 0x0BE t = 0 ∧ readLoc 0x049 t = 63 :=
  ⟨⟨_, rfl, by decide +kernel⟩, ⟨_, rfl, by decide +kernel⟩⟩
/-- Each branch at the ends of its range: V36, V37, V33, V34, and the accepted ends 1 and 63999. -/
theorem witness_DataCommand :
    allOf [511, 513, 0] (fun n : Half => { v20 with slotCnt := n }.slotCnt ≠ 512)
      ∧ allOf [0, 64000, 65535] (fun u : Half => { v20 with univ := u }.slotCnt = 512
          ∧ (({ v20 with univ := u }.univ.toNat < 1) ∨ 63999 < { v20 with univ := u }.univ.toNat))
      ∧ allOf [1, 63999] (fun u : Half => { v20 with univ := u }.slotCnt = 512
          ∧ 1 ≤ { v20 with univ := u }.univ.toNat ∧ { v20 with univ := u }.univ.toNat ≤ 63999) := by decide +kernel
theorem witness_DataCommand_refused :
    exec (.data 0 1 0) { v20 with univ := 64000 }
      = .next { v20 with univ := 64000, status := 0x42, outLen := 0 } := rfl
/-- Each branch at the ends of its range: V48, V49, V51 and the empty list. -/
theorem witness_DiscCommand :
    512 < (listing [] 513).uCnt.toNat
      ∧ (2 = (listing [1, 64000] 2).uCnt.toNat ∧ 2 ≤ 512
          ∧ ∃ i < 2, ((listing [1, 64000] 2).uList.get i).toNat < 1
            ∨ 63999 < ((listing [1, 64000] 2).uList.get i).toNat)
      ∧ (2 = (listing [63999, 1] 2).uCnt.toNat
          ∧ ∀ i < 2, 1 ≤ ((listing [63999, 1] 2).uList.get i).toNat
            ∧ ((listing [63999, 1] 2).uList.get i).toNat ≤ 63999)
      ∧ 0 = (listing [] 0).uCnt.toNat := by decide +kernel
/-- The longest list, as V47. -/
theorem witness_DiscCommand_longest : 512 = { s0 with uCnt := 512 }.uCnt.toNat
    ∧ ∀ i < 512, 1 ≤ ((Buf.build fun _ => 7 : Buf 16 512).get i).toNat
      ∧ ((Buf.build fun _ => 7 : Buf 16 512).get i).toNat ≤ 63999 :=
  ⟨by decide +kernel, fun i hi => by rw [Buf.get_build hi]; decide⟩
theorem witness_DiscCommand_refused :
    exec (.disc 0) (listing [1, 64000] 2)
      = .next { listing [1, 64000] 2 with status := 0x42, outLen := 0 } := rfl
/-- A success of each encode command: the hypotheses of the statements about a packet held. -/
theorem witness_LengthFieldsCountToPacketEnd :
    (isEncode (.data 0 1 0x40) = true ∧ ∃ t, exec (.data 0 1 0x40) v20 = .next t ∧ t.status = 0x01)
      ∧ (isEncode (.sync 7 42) = true ∧ ∃ t, exec (.sync 7 42) s0 = .next t ∧ t.status = 0x01)
      ∧ (isEncode (.disc 0) = true ∧ ∃ t, exec (.disc 0) (listing [5, 1, 3] 3) = .next t ∧ t.status = 0x01) :=
  ⟨⟨rfl, _, rfl, rfl⟩, ⟨rfl, _, rfl, rfl⟩, ⟨rfl, _, rfl, rfl⟩⟩
theorem witness_ReservedWireFieldsAreZero :
    isEncode (.data 0 1 0x1F) = true ∧ ∃ t, exec (.data 0 1 0x1F) v20 = .next t ∧ t.status = 0x01
      ∧ t.out.get 112 = 0x00 := ⟨rfl, _, rfl, rfl, by decide +kernel⟩
theorem witness_PacketKindFromVectors :
    isEncode (.disc 0) = true ∧ ∃ t, exec (.disc 0) (listing [5, 1, 3] 3) = .next t ∧ t.status = 0x01
      ∧ slice t.out 18 4 = [0, 0, 0, 8] ∧ slice t.out 40 4 = [0, 0, 0, 2] := ⟨rfl, _, rfl, rfl, by decide +kernel⟩
/-- For each encode command two states that agree on what it reads and differ elsewhere. -/
theorem witness_EncodeOutcomeDependsOnWhatItReads :
    ({ v20 with page := 9, flRes := 0x7001 }.cid = v20.cid ∧ { v20 with page := 9 }.slotCnt = v20.slotCnt
        ∧ { v20 with page := 9 }.slot = v20.slot
        ∧ (∃ t, exec (.data 0 1 0) v20 = .next t) ∧ ∃ t, exec (.data 0 1 0) { v20 with page := 9 } = .next t)
      ∧ ({ s0 with priority := 7, nameLen := 1 }.cid = s0.cid
        ∧ (∃ t, exec (.sync 7 42) s0 = .next t) ∧ ∃ t, exec (.sync 7 42) { s0 with priority := 7 } = .next t)
      ∧ ((listing [1, 0] 1).uCnt = (listing [1] 1).uCnt
        ∧ (∀ k < 1, (listing [1, 0] 1).uList.get k = (listing [1] 1).uList.get k)
        ∧ (∃ t, exec (.disc 0) (listing [1, 0] 1) = .next t) ∧ ∃ t, exec (.disc 0) (listing [1] 1) = .next t) :=
  ⟨⟨rfl, rfl, rfl, ⟨_, rfl⟩, ⟨_, rfl⟩⟩, ⟨rfl, ⟨_, rfl⟩, ⟨_, rfl⟩⟩, ⟨rfl, by decide +kernel, ⟨_, rfl⟩, ⟨_, rfl⟩⟩⟩
theorem witness_ErrorsOfEachCommand :
    ((asked (.cmd 0)).host = .cmd 0 :: [] ∧ decode 0 = .error .illegal)
      ∧ (∃ t, step (asked (.wr 0x040 5)) = .next t ∧ (asked (.wr 0x040 5)).host = .wr 0x040 5 :: [])
      ∧ (∃ t, step (asked (.rd 0x040)) = .next t ∧ (asked (.rd 0x040)).host = .rd 0x040 :: [])
      ∧ ∃ t, step (asked .reset) = .next t ∧ (asked .reset).host = .reset :: [] :=
  ⟨⟨rfl, by decide +kernel⟩, ⟨_, rfl, rfl⟩, ⟨_, rfl, rfl⟩, ⟨_, rfl, rfl⟩⟩
/-- A failing `DATA` (V40), a failing `SETPRI` and an illegal word, each as a step. -/
theorem witness_FailedCommandChangesOnlyStatusAndOutlen :
    (∃ t, step (asked (.cmd 0x1000000000000000)) = .next t ∧ t.status.getLsbD 1 = true
        ∧ decode 0x1000000000000000 = .ok (.data 0 0 0))
      ∧ (∃ t, step (asked (.cmd 0x03000000000000C9)) = .next t ∧ t.status.getLsbD 1 = true)
      ∧ ∃ t, step (asked (.cmd 0)) = .next t ∧ t.status.getLsbD 1 = true :=
  ⟨⟨_, rfl, rfl, by decide +kernel⟩, ⟨_, rfl, rfl⟩, ⟨_, rfl, rfl⟩⟩
/-- A step of each kind the statement tells apart: a success, a failure, nothing, a write, a reset. -/
theorem witness_StatusRule :
    (∃ t, step (asked (.cmd 0x0100000000000000)) = .next t ∧ t.status.getLsbD 1 = false)
      ∧ (∃ t, step (asked (.cmd 0x0200000000000000)) = .next t ∧ t.status.getLsbD 1 = true)
      ∧ (∃ t, step s0 = .next t ∧ s0.host = [])
      ∧ (∃ t, step (asked (.wr 0x04A 0)) = .next t ∧ (asked (.wr 0x04A 0)).host = .wr 0x04A 0 :: [])
      ∧ ∃ t, step (asked .reset) = .next t ∧ (asked .reset).host = .reset :: [] :=
  ⟨⟨_, rfl, rfl⟩, ⟨_, rfl, rfl⟩, ⟨_, rfl, rfl⟩, ⟨_, rfl, rfl⟩, ⟨_, rfl, rfl⟩⟩
theorem witness_InputsAreNeverModified : isEncode (.disc 3) = true := rfl
/-- Each configuration command, and one that fails. -/
theorem witness_ConfigurationCommandFrame :
    (∃ n, Instr.setname 4 = .setname n) ∧ (∃ p, Instr.setpri 201 = .setpri p)
      ∧ ∃ t, exec (.setpri 201) s0 = .next t ∧ t.status ≠ 0x01 := ⟨⟨4, rfl⟩, ⟨201, rfl⟩, _, rfl, by decide +kernel⟩
/-- A command that writes `OUT`, an index it leaves, and a command and a failure that write none of it. -/
theorem witness_OutIsWrittenOnlyBelowOutlen :
    (∃ t, exec (.flen 0) s0 = .next t ∧ isEncode (.flen 0) = false)
      ∧ (∃ t, exec (.data 0 0 0) s0 = .next t ∧ t.status ≠ 0x01)
      ∧ (∃ t, exec (.sync 7 42) s0 = .next t ∧ isEncode (.sync 7 42) = true ∧ t.outLen.toNat ≤ 49)
      ∧ ∃ t, step (asked (.cmd 0x11002A0007000000)) = .next t ∧ t.out.get 1 = 0x10 ∧ s0.out.get 1 = 0x00 :=
  ⟨⟨_, rfl, rfl⟩, ⟨_, rfl, by decide +kernel⟩, ⟨_, rfl, rfl, by decide +kernel⟩, ⟨_, rfl, by decide +kernel⟩⟩
theorem witness_OutlenRule :
    isEncode (.flen 1) = false ∧ (asked (.cmd 0)).host = .cmd 0 :: [] ∧ decode 0 = .error .illegal
      ∧ (asked (.wr 0x04B 0)).host = .wr 0x04B 0 :: [] := ⟨rfl, rfl, by decide +kernel, rfl⟩
theorem witness_FlresRule :
    (∀ len, Instr.setcid ≠ .flen len) ∧ (asked (.cmd 0)).host = .cmd 0 :: [] ∧ decode 0 = .error .illegal
      ∧ (asked (.wr 0x04C 0)).host = .wr 0x04C 0 :: []
      ∧ ∃ t, exec (.flen 0) s0 = .next t ∧ t.status = 0x01 ∧ t.flRes = 0x7000 :=
  ⟨fun _ h => (nomatch h), rfl, by decide +kernel, rfl, _, rfl, rfl, rfl⟩
/-- A step that changes each part of the identity: its own command, and a reset. -/
theorem witness_IdentityChangesOnlyByItsOwnCommand :
    (∃ t, step (asked (.cmd 0x0100000000000000)) = .next t ∧ t.cid.get 0 ≠ s0.cid.get 0)
      ∧ (∃ t, step (asked (.cmd 0x0200000000000006)) = .next t ∧ t.nameLen ≠ s0.nameLen
          ∧ t.srcName.get 4 ≠ s0.srcName.get 4)
      ∧ (∃ t, step (asked (.cmd 0x03000000000000C8)) = .next t ∧ t.priority ≠ s0.priority)
      ∧ ∃ t, step (asked .reset) = .next t ∧ t.nameLen ≠ s0.nameLen :=
  ⟨⟨_, rfl, by decide +kernel⟩, ⟨_, rfl, by decide +kernel⟩, ⟨_, rfl, by decide +kernel⟩,
    ⟨_, rfl, by decide +kernel⟩⟩
/-- The configured state `S0` has the invariant, and a step from it. -/
theorem witness_StepKeepsInvariant :
    (asked (.cmd 0x11002A0007000000)).Inv ∧ ∃ t, step (asked (.cmd 0x11002A0007000000)) = .next t :=
  ⟨{ priority_le := by decide +kernel
     nameLen_le := by decide +kernel
     name_padded := by decide +kernel
     outLen_legal := .inl (by decide +kernel)
     packet_preamble := fun h => absurd h (by decide +kernel)
     packet_flags := fun h => absurd h (by decide +kernel)
     packet_length := fun h => absurd h (by decide +kernel)
     status_value := by decide +kernel
     flRes_value := .inl (by decide +kernel) }, _, rfl⟩
/-- Two actions after which `NAMELEN` is 0 although a `SETNAME` was among them. -/
theorem witness_ReachableStates :
    (∃ t, core.run 1 { State.reset with host := [.cmd 0x0200000000000040] } = .next t ∧ t.nameLen = 0)
      ∧ [HostAction.cmd 0x0200000000000040] = [] ++ .cmd 0x0200000000000040 :: []
      ∧ HostAction.reset ∉ ([] : List HostAction) ∧ decode 0x0200000000000040 = .ok (.setname 64) :=
  ⟨⟨_, rfl, rfl⟩, rfl, by simp, by decide +kernel⟩
theorem witness_CommandsRightAfterReset :
    allOf [1, 63] (fun n : Half => 1 ≤ n.toNat ∧ n.toNat ≤ 63)
      ∧ allOf [0, 64] (fun n : Half => n.toNat = 0 ∨ 63 < n.toNat) := by decide +kernel
/-- Lists of the lengths at the ends of each clause's range. -/
theorem witness_PseudoInstructionsLoad :
    (List.replicate 16 (0x0A : Byte)).length = 16 ∧ (List.replicate 64 (0x41 : Byte)).length ≤ 64
      ∧ (1 ≤ (List.replicate 63 (0x41 : Byte)).length ∧ (List.replicate 63 (0x41 : Byte)).length ≤ 63)
      ∧ ([] : List Byte).length = 0 ∧ (List.replicate 512 (0x80 : Byte)).length ≤ 512
      ∧ (List.replicate 512 (7 : Half)).length ≤ 512 := by decide +kernel
/-- Arguments at the ends of each clause's range: V4, V5, V36, V49, V7 and V6. -/
theorem witness_SourceCallsAnswer :
    (1 ≤ (List.replicate 63 (0x41 : Byte)).length ∧ (List.replicate 63 (0x41 : Byte)).length ≤ 63)
      ∧ 64 ≤ (List.replicate 64 (0x41 : Byte)).length
      ∧ ((-32768 : Int) ≤ -1 ∧ (-1 : Int) < 0 ∧ (0 : Int) ≤ 200 ∧ (200 : Int) < 201 ∧ (201 : Int) < 65536)
      ∧ (List.replicate 511 (0x80 : Byte)).length ≠ 512 ∧ (List.replicate 512 (0x80 : Byte)).length = 512
      ∧ (1 ≤ (63999 : Half).toNat ∧ (63999 : Half).toNat ≤ 63999) ∧ 63999 < (64000 : Half).toNat
      ∧ 512 < (List.replicate 513 (7 : Half)).length
      ∧ 64000#16 ∈ [1#16, 64000#16] ∧ allOf [5, 1, 3] (fun u : Half => 1 ≤ u.toNat ∧ u.toNat ≤ 63999) := by decide +kernel

end Sys2Proof.Tests
end

section
/-! PROOFS. A command issued again from the state it left (00_scope.md R2, 60_exceptions.md R236).

No command writes what its checks and its effect read, so in the state a command left the same check decides
and the same values are written. -/

namespace Sys2Proof.Machine

/-! ### `exec` from its effect or its error, the converses of `exec_next_cases` -/

/-- A command whose checks pass leaves the state of its effect. -/
theorem exec_of_hasEffect {i : Instr} {s t : State} (h : HasEffect i s t) : exec i s = .next t := by
  cases i with
  | setcid => cases h; rfl
  | setname n => obtain ⟨hn, rfl⟩ := h; exact execSetname_ok hn s
  | setpri p => obtain ⟨hp, rfl⟩ := h; exact execSetpri_ok hp s
  | data sync seq opt =>
    obtain ⟨hs, hu, rfl⟩ := h
    exact finishEncode_ok (dataPacket_ok hs hu sync seq opt) s
  | sync sync seq => cases h; exact execSync_eq sync seq s
  | disc seq => obtain ⟨hn, hu, rfl⟩ := h; exact finishEncode_ok (discPacket_ok hn hu) s
  | flen len => obtain ⟨hl, rfl⟩ := h; exact execFlen_ok hl s

/-- A command with a failing check completes with that check's error. -/
theorem exec_of_raises {i : Instr} {s : State} {c : ErrorCode} (h : Raises i s c) :
    exec i s = .next (raiseError (isEncode i) c s) := by
  cases i with
  | setcid => cases h
  | setname n => obtain ⟨hn, rfl⟩ := h; exact execSetname_error hn s
  | setpri p => obtain ⟨hp, rfl⟩ := h; exact execSetpri_error hp s
  | data sync seq opt =>
    obtain ⟨hs, rfl⟩ | ⟨hs, hu, rfl⟩ := h
    · exact finishEncode_error (dataPacket_slots hs sync seq opt) s
    · exact finishEncode_error (dataPacket_universe hs hu sync seq opt) s
  | sync sync seq => cases h
  | disc seq =>
    obtain ⟨hn, rfl⟩ | ⟨hn, hu, rfl⟩ := h
    · exact finishEncode_error (discPacket_page hn) s
    · exact finishEncode_error (discPacket_universe hn hu) s
  | flen len => obtain ⟨hl, rfl⟩ := h; exact execFlen_error hl s

/-! ### The completions, done twice -/

/-- Committing a packet again writes the bytes that are already there. -/
@[simp] theorem commitPacket_commitPacket (p : List Byte) (s : State) :
    commitPacket p (commitPacket p s) = commitPacket p s := by
  simp only [commitPacket, Buf.overwrite_overwrite]

/-- Raising an error again changes nothing, since `OUTLEN` is 0 or kept. -/
@[simp] theorem raiseError_raiseError (e : Bool) (c : ErrorCode) (s : State) :
    raiseError e c (raiseError e c s) = raiseError e c s := by
  cases e <;> rfl

/-! ### What a command reads is unchanged by its own completion -/

/-- A command that had its effect has it again, and the effect is then no change: each command writes only
elements that neither its checks nor its effect read. -/
theorem HasEffect.again {i : Instr} {s t : State} (h : HasEffect i s t) : HasEffect i t t := by
  cases i with
  | setcid => cases h; rfl
  | setname n => obtain ⟨hn, rfl⟩ := h; exact ⟨hn, rfl⟩
  | setpri p => obtain ⟨hp, rfl⟩ := h; exact ⟨hp, rfl⟩
  | data sync seq opt =>
    obtain ⟨hs, hu, rfl⟩ := h
    exact ⟨hs, hu, (commitPacket_commitPacket _ s).symm⟩
  | sync sync seq => cases h; exact (commitPacket_commitPacket _ s).symm
  | disc seq =>
    obtain ⟨hn, hu, rfl⟩ := h
    exact ⟨hn, hu, (commitPacket_commitPacket _ s).symm⟩
  | flen len => obtain ⟨hl, rfl⟩ := h; exact ⟨hl, rfl⟩

/-- A `ValidationError` changes nothing that a check reads, so the same check fails first again. -/
theorem Raises.again {i : Instr} {s : State} {c : ErrorCode} (h : Raises i s c) (e : Bool) :
    Raises i (raiseError e c s) c := by
  cases i <;> exact h

/-- Settles O39: a command that had its effect has the same effect again (`HasEffect.again`), and one that
raised an error raises the same error again (`Raises.again`). -/
theorem commandsAreIdempotent : Obligations.CommandsAreIdempotent := by
  intro i s
  obtain ⟨t, hexec, heffect⟩ | ⟨c, hexec, hraises⟩ := exec_cases i s
  · exact ⟨t, hexec, exec_of_hasEffect heffect.again⟩
  · refine ⟨raiseError (isEncode i) c s, hexec, ?_⟩
    rw [exec_of_raises (hraises.again (isEncode i)), raiseError_raiseError]

end Sys2Proof.Machine
end

section
/-! PROOFS. The results a command leaves: `STATUS` (10_state.md R35), `OUTLEN` (R34) and `FLRES` (R36).

Each is read off the completion: a command has its effect or raises an error (`exec_cases`), an illegal word
raises `E_ILLEGAL`, and a host write touches operands alone. -/

namespace Sys2Proof.Machine

/-! ### Steps that run no command -/

/-- A step that takes an illegal word completes with that word's error (30_encoding.md R95). -/
theorem step_illegal {s : State} {w : CmdWord} {c : ErrorCode} {rest : List HostAction}
    (h : s.host = .cmd w :: rest) (hd : decode w = .error c) :
    step s = .next (raiseError false c (takeAction rest s)) := by
  rw [step_action h, perform, hostCommand, hd]

theorem step_wr {s : State} {loc : Loc} {v : Half} {rest : List HostAction}
    (h : s.host = .wr loc v :: rest) : step s = .next (hostWrite loc v (takeAction rest s)) :=
  step_action h

@[simp] theorem hostWrite_status (loc : Loc) (v : Half) (s : State) :
    (hostWrite loc v s).status = s.status := by
  rw [hostWrite_frame]

@[simp] theorem hostWrite_outLen (loc : Loc) (v : Half) (s : State) :
    (hostWrite loc v s).outLen = s.outLen := by
  rw [hostWrite_frame]

@[simp] theorem hostWrite_flRes (loc : Loc) (v : Half) (s : State) :
    (hostWrite loc v s).flRes = s.flRes := by
  rw [hostWrite_frame]

/-! ### `STATUS` -/

/-- The values a completed command writes to `STATUS`: a success, or one of the seven errors. -/
def commandStatuses : List Byte := [0x01, 0x12, 0x22, 0x32, 0x42, 0x52, 0x62, 0x72]

theorem statusSuccess_mem : statusSuccess ∈ commandStatuses := by decide

theorem statusError_mem (c : ErrorCode) : statusError c ∈ commandStatuses := by
  cases c <;> decide

/-- Exactly one of `OK` and `ERR` is 1 and bits 3:2 are 0. -/
theorem okBit_xor_errBit_of_mem :
    ∀ b ∈ commandStatuses, (okBit b ^^ errBit b) = true ∧ b.extractLsb' 2 2 = 0#2 := by
  decide

/-- `CODE` is 0 after a success and the error's number after an error. -/
theorem codeField_of_mem :
    ∀ b ∈ commandStatuses,
      (errBit b = false → codeField b = 0#4) ∧ (errBit b = true → codeField b ≠ 0#4) := by
  decide

theorem exec_status_mem {i : Instr} {s t : State} (h : exec i s = .next t) :
    t.status ∈ commandStatuses := by
  obtain heffect | ⟨c, rfl, -⟩ := exec_next_cases h
  · rw [heffect.status_eq]
    exact statusSuccess_mem
  · exact statusError_mem c

/-- Every command word, legal or not, writes `STATUS` whole. -/
theorem perform_cmd_status_mem {s t : State} {w : CmdWord} (h : perform (.cmd w) s = .next t) :
    t.status ∈ commandStatuses := by
  obtain ⟨i, -, hexec⟩ | ⟨-, rfl⟩ := perform_cmd_cases h
  · exact exec_status_mem hexec
  · exact statusError_mem .illegal

/-- No check and no effect reads `STATUS`, and every completion overwrites it. -/
theorem exec_withStatus (i : Instr) (s : State) (st : Byte) :
    exec i { s with status := st } = exec i s := by
  obtain ⟨t, hexec, heffect⟩ | ⟨c, hexec, hraises⟩ := exec_cases i s
  · have heffect' : HasEffect i { s with status := st } t := by cases i <;> exact heffect
    rw [hexec, exec_of_hasEffect heffect']
  · have hraises' : Raises i { s with status := st } c := by cases i <;> exact hraises
    rw [hexec, exec_of_raises hraises']
    rfl

/-- Settles O32: a command's `STATUS` is one of `commandStatuses`, whose bits are as R35 says; a write, a
read and an idle step keep it, and no command reads it (`exec_withStatus`). -/
theorem statusRule : Obligations.StatusRule := by
  refine ⟨?command, ?kept, ?reset, exec_withStatus⟩
  case command =>
    intro s t w rest hhost hstep
    rw [step_action hhost] at hstep
    have hmem := perform_cmd_status_mem hstep
    obtain ⟨hone, hzero⟩ := okBit_xor_errBit_of_mem _ hmem
    obtain ⟨hsuccess, herror⟩ := codeField_of_mem _ hmem
    exact ⟨hone, hzero, hsuccess, herror, hmem⟩
  case kept =>
    rintro s t rest hstep (hidle | ⟨loc, v, hwr⟩ | ⟨loc, hrd⟩)
    · rw [step_idle hidle] at hstep
      cases hstep
      rfl
    · rw [step_wr hwr] at hstep
      cases hstep
      exact hostWrite_status loc v _
    · rw [step_action hrd] at hstep
      cases hstep
      rfl
  case reset =>
    intro s t rest hstep hhost
    rw [step_action hhost] at hstep
    cases hstep
    rfl

/-! ### `OUTLEN` -/

theorem exec_data_outLen (sync : Half) (seq opt : Byte) (s : State) :
    ∃ t, exec (.data sync seq opt) s = .next t ∧ t.outLen = if t.status = 0x01 then 638 else 0 := by
  obtain ⟨_, hexec, -, -, rfl⟩ | ⟨c, hexec, -⟩ := exec_cases (.data sync seq opt) s
  · refine ⟨_, hexec, ?_⟩
    rw [commitPacket_outLen, length_dataFields]
    exact (if_pos rfl).symm
  · exact ⟨_, hexec, (if_neg (statusError_ne_success c)).symm⟩

theorem exec_sync_outLen (sync : Half) (seq : Byte) (s : State) :
    ∃ t, exec (.sync sync seq) s = .next t ∧ t.outLen = 49 := by
  refine ⟨_, execSync_eq sync seq s, ?_⟩
  rw [commitPacket_outLen, length_syncFields]
  rfl

/-- The length of a discovery packet fits `OUTLEN`, because a successful `DISC` has at most 512 entries. -/
theorem exec_disc_outLen (seq : Byte) (s : State) :
    ∃ t, exec (.disc seq) s = .next t
      ∧ t.outLen.toNat = if t.status = 0x01 then 120 + 2 * s.uCnt.toNat else 0 := by
  obtain ⟨_, hexec, hn, -, rfl⟩ | ⟨c, hexec, -⟩ := exec_cases (.disc seq) s
  · refine ⟨_, hexec, ?_⟩
    rw [commitPacket_outLen, length_discFields hn, BitVec.toNat_ofNat, Nat.mod_eq_of_lt (by omega)]
    exact (if_pos rfl).symm
  · exact ⟨_, hexec, (if_neg (statusError_ne_success c)).symm⟩

theorem HasEffect.outLen_eq {i : Instr} {s t : State} (h : HasEffect i s t) (hi : isEncode i = false) :
    t.outLen = s.outLen := by
  cases i with
  | setcid => cases h; rfl
  | setname n => obtain ⟨-, rfl⟩ := h; rfl
  | setpri p => obtain ⟨-, rfl⟩ := h; rfl
  | data sync seq opt => cases hi
  | sync sync seq => cases hi
  | disc seq => cases hi
  | flen len => obtain ⟨-, rfl⟩ := h; rfl

/-- A command that is no encode command keeps `OUTLEN`, whether it succeeds or fails. -/
theorem exec_outLen_of_not_isEncode {i : Instr} (hi : isEncode i = false) (s : State) :
    ∃ t, exec i s = .next t ∧ t.outLen = s.outLen := by
  obtain ⟨t, hexec, heffect⟩ | ⟨c, hexec, -⟩ := exec_cases i s
  · exact ⟨t, hexec, heffect.outLen_eq hi⟩
  · exact ⟨_, hexec, by simp [hi]⟩

/-- Settles O36: one lemma per encode command, one for all the others, and the frames of an illegal word and
of a host write. -/
theorem outlenRule : Obligations.OutlenRule :=
  ⟨exec_data_outLen, exec_sync_outLen, exec_disc_outLen,
    fun _ s hi => exec_outLen_of_not_isEncode hi s,
    fun _ _ _ _ hhost hdecode => ⟨_, step_illegal hhost hdecode, rfl⟩,
    fun _ loc v _ hhost => ⟨_, step_wr hhost, hostWrite_outLen loc v _⟩,
    rfl⟩

/-! ### `FLRES` -/

theorem exec_flen_flRes (len : Half) (s : State) :
    ∃ t, exec (.flen len) s = .next t
      ∧ t.flRes = if len.toNat ≤ 4095 then 0x7000#16 ||| len else s.flRes := by
  obtain ⟨_, hexec, hlen, rfl⟩ | ⟨c, hexec, hlen, -⟩ := exec_cases (.flen len) s
  · exact ⟨_, hexec, (if_pos hlen).symm⟩
  · exact ⟨_, hexec, (if_neg (by omega)).symm⟩

theorem HasEffect.flRes_eq {i : Instr} {s t : State} (h : HasEffect i s t) (hi : ∀ len, i ≠ .flen len) :
    t.flRes = s.flRes := by
  cases i with
  | setcid => cases h; rfl
  | setname n => obtain ⟨-, rfl⟩ := h; rfl
  | setpri p => obtain ⟨-, rfl⟩ := h; rfl
  | data sync seq opt => obtain ⟨-, -, rfl⟩ := h; rfl
  | sync sync seq => cases h; rfl
  | disc seq => obtain ⟨-, -, rfl⟩ := h; rfl
  | flen len => exact absurd rfl (hi len)

/-- Every command but `FLEN` keeps `FLRES`, whether it succeeds or fails. -/
theorem exec_flRes_of_ne_flen {i : Instr} (hi : ∀ len, i ≠ .flen len) (s : State) :
    ∃ t, exec i s = .next t ∧ t.flRes = s.flRes := by
  obtain ⟨t, hexec, heffect⟩ | ⟨c, hexec, -⟩ := exec_cases i s
  · exact ⟨t, hexec, heffect.flRes_eq hi⟩
  · exact ⟨_, hexec, raiseError_flRes _ c s⟩

/-- A successful `FLEN` sets the flags nibble, so its result is not the reset value. -/
theorem flRes_ne_zero_of_success {len : Half} {s t : State} (h : exec (.flen len) s = .next t)
    (hs : t.status = statusSuccess) : t.flRes ≠ 0x0000 := by
  obtain ⟨-, rfl⟩ := hasEffect_of_success h hs
  intro hzero
  have hflags : 0x7000#16 = 0#16 := (BitVec.or_eq_zero_iff.mp hzero).1
  exact absurd hflags (by decide)

/-- Settles O37: what `FLEN` writes, what every other command, an illegal word and a host write keep, and that
a success never gives the reset value. -/
theorem flresRule : Obligations.FlresRule :=
  ⟨exec_flen_flRes, fun _ s hi => exec_flRes_of_ne_flen hi s,
    fun _ _ _ _ hhost hdecode => ⟨_, step_illegal hhost hdecode, rfl⟩,
    fun _ loc v _ hhost => ⟨_, step_wr hhost, hostWrite_flRes loc v _⟩,
    rfl, fun _ _ _ hexec hstatus => flRes_ne_zero_of_success hexec hstatus⟩

end Sys2Proof.Machine
end

section
/-! PROOFS. What `WR` stores (20_memory.md R63).

A location's element is the one that lives at its address, so a write stores by `writeElement` at a mapped
location; the elements outside the operand ranges are the read-only ones, which `writeElement` keeps. -/

namespace Sys2Proof.Machine

/-! ### A host write read off the element's address -/

/-- The location at an element's address holds that element, the converse of `locate_sound`
(20_memory.md R61). -/
theorem locate_of_toNat_eq {loc : Loc} {e : Element} (h : loc.toNat = elementAddr e) :
    locate loc = some e := by
  cases e
  all_goals dsimp only [elementAddr] at h
  case stg => simp only [locate_stg (loc := loc) (by omega), h]
  case cid => simp only [locate_cid (loc := loc) (by omega), h, Nat.add_sub_cancel_left]
  case srcName => simp only [locate_srcName (loc := loc) (by omega), h, Nat.add_sub_cancel_left]
  case slot => simp only [locate_slot (loc := loc) (by omega), h, Nat.add_sub_cancel_left]
  case uList => simp only [locate_uList (loc := loc) (by omega), h, Nat.add_sub_cancel_left]
  case out => simp only [locate_out (loc := loc) (by omega), h, Nat.add_sub_cancel_left]
  case univ | slotCnt | uCnt | page | lastPage | priority | nameLen | status | outLen | flRes =>
    simp [locate, h]

theorem hostWrite_of_toNat_eq {loc : Loc} {e : Element} (h : loc.toNat = elementAddr e) (v : Half)
    (s : State) : hostWrite loc v s = writeElement e v s := by
  simp only [hostWrite, locate_of_toNat_eq h]

/-- The elements outside the operand ranges are read-only (20_memory.md R61, the access column). -/
theorem writeElement_eq_self {e : Element}
    (h : (0x045 ≤ elementAddr e ∧ elementAddr e ≤ 0x1FF) ∨ 0x600 ≤ elementAddr e) (v : Half)
    (s : State) : writeElement e v s = s := by
  cases e with
  | priority | nameLen | status | outLen | flRes | cid | srcName | out => rfl
  | stg | univ | slotCnt | uCnt | page | lastPage | slot | uList =>
    dsimp only [elementAddr] at h
    omega

/-- A write to a read-only or unmapped location is dropped (20_memory.md R63). -/
theorem hostWrite_eq_self {loc : Loc}
    (h : (0x045 ≤ loc.toNat ∧ loc.toNat ≤ 0x1FF) ∨ 0x600 ≤ loc.toNat) (v : Half) (s : State) :
    hostWrite loc v s = s := by
  unfold hostWrite
  split
  next e he => exact writeElement_eq_self (locate_sound he ▸ h) v s
  next => rfl

/-! ### The three operand buffers -/

theorem hostWrite_stg {loc : Loc} (h : loc.toNat < 0x040) (v : Half) (s : State) :
    hostWrite loc v s = { s with stg := s.stg.set loc.toNat (v.extractLsb' 0 8) } :=
  hostWrite_of_toNat_eq (e := .stg ⟨loc.toNat, h⟩) rfl v s

theorem hostWrite_slot {loc : Loc} (h : 0x200 ≤ loc.toNat ∧ loc.toNat ≤ 0x3FF) (v : Half)
    (s : State) :
    hostWrite loc v s = { s with slot := s.slot.set (loc.toNat - 0x200) (v.extractLsb' 0 8) } :=
  hostWrite_of_toNat_eq (e := .slot ⟨loc.toNat - 0x200, by omega⟩)
    (Nat.add_sub_cancel' h.1).symm v s

theorem hostWrite_uList {loc : Loc} (h : 0x400 ≤ loc.toNat ∧ loc.toNat ≤ 0x5FF) (v : Half)
    (s : State) :
    hostWrite loc v s = { s with uList := s.uList.set (loc.toNat - 0x400) v } :=
  hostWrite_of_toNat_eq (e := .uList ⟨loc.toNat - 0x400, by omega⟩)
    (Nat.add_sub_cancel' h.1).symm v s

/-! ### The step -/

/-- Settles O10: the step takes the write off the port and writes; each range of the map is then one of the
equations above, and a buffer is read back by `Buf.get_set_self` and `Buf.get_set_ne`. -/
theorem hostWriteStores : Obligations.HostWriteStores := by
  intro s loc v rest hhost
  refine ⟨_, step_wr hhost, fun h => ?stg, fun h => hostWrite_of_toNat_eq (e := .univ) h v _,
    fun h => hostWrite_of_toNat_eq (e := .slotCnt) h v _,
    fun h => hostWrite_of_toNat_eq (e := .uCnt) h v _,
    fun h => hostWrite_of_toNat_eq (e := .page) h v _,
    fun h => hostWrite_of_toNat_eq (e := .lastPage) h v _,
    fun h => ?slot, fun h => ?uList, fun h => hostWrite_eq_self h v _⟩
  case stg =>
    rw [hostWrite_stg h]
    exact ⟨rfl, Buf.get_set_self _ h _, fun i _ hne => Buf.get_set_ne _ hne _⟩
  case slot =>
    rw [hostWrite_slot h]
    exact ⟨rfl, Buf.get_set_self _ (by omega) _, fun i _ hne => Buf.get_set_ne _ hne _⟩
  case uList =>
    rw [hostWrite_uList h]
    exact ⟨rfl, Buf.get_set_self _ (by omega) _, fun i _ hne => Buf.get_set_ne _ hne _⟩

end Sys2Proof.Machine
end

section
/-! PROOFS. The opcode map and the illegal words (30_encoding.md R92, R95).

The rows are told apart by their opcodes alone, so the row a word matches is the one the decoder finds. Each
row's masked equation says that its opcode is there and its must-be-zero fields are 0. -/

namespace Sys2Proof

open Machine

/-! ### At most one row matches -/

theorem opcodeMap_opcodes_nodup : (opcodeMap.map fun r => r.bits.extractLsb' 56 8).Nodup := by
  decide

/-- Two rows that match one word have that word's opcode, and no two rows share an opcode. -/
theorem matching_row_unique {w : CmdWord} {r r' : OpcodeRow} (hr : r ∈ opcodeMap)
    (hr' : r' ∈ opcodeMap) (h : w &&& r.mask = r.bits) (h' : w &&& r'.mask = r'.bits) : r' = r :=
  List.inj_on_of_nodup_map opcodeMap_opcodes_nodup hr' hr
    ((opcode_of_row hr' h').symm.trans (opcode_of_row hr h))

/-- The converse of `decode_ok_row`: a word in a row decodes to that row's command. -/
theorem decode_of_matching_row {w : CmdWord} {r : OpcodeRow} (hr : r ∈ opcodeMap)
    (h : w &&& r.mask = r.bits) : decode w = .ok (r.build w) := by
  cases hdecode : decode w with
  | ok i =>
    obtain ⟨r', hr', h', rfl⟩ := decode_ok_row hdecode
    rw [matching_row_unique hr hr' h h']
  | error c => exact absurd h (((decode_error_iff w c).mp hdecode).2 r hr)

/-- Settles O3: the rows are as listed by computation; a word's row is the only one that matches
(`matching_row_unique`), and it decides what the word decodes to. -/
theorem opcodeMapDecides : Obligations.OpcodeMapDecides := fun _ =>
  ⟨rfl,
    fun _ hr h => ⟨decode_of_matching_row hr h,
      fun _ hr' h' => congrArg OpcodeRow.mnemonic (matching_row_unique hr hr' h h')⟩,
    fun _ hdecode => decode_ok_row hdecode⟩

/-! ### A row's masked equation, field by field -/

/-- Bit `i` of a word lies in one of the fields, each given by its lowest bit and its width. -/
def inFields (fields : List (Nat × Nat)) (i : Nat) : Bool :=
  fields.any fun f => decide (f.1 ≤ i) && decide (i < f.1 + f.2)

theorem inFields_iff (fields : List (Nat × Nat)) (i : Nat) :
    inFields fields i = true ↔ ∃ f ∈ fields, f.1 ≤ i ∧ i < f.1 + f.2 := by
  simp only [inFields, List.any_eq_true, Bool.and_eq_true, decide_eq_true_eq]

/-- When the mask is exactly the bits of some fields, a word satisfies the masked equation if and only if it
has the fields of `v`. -/
theorem and_mask_eq_iff_fields {m v : CmdWord} (fields : List (Nat × Nat))
    (hm : ∀ i < 64, m.getLsbD i = inFields fields i) (hv : v &&& m = v) (w : CmdWord) :
    w &&& m = v ↔ ∀ f ∈ fields, w.extractLsb' f.1 f.2 = v.extractLsb' f.1 f.2 := by
  have hvbits := (and_mask_eq_iff v m v).mp hv
  constructor
  · rintro h ⟨k, n⟩ hf
    rw [extractLsb'_eq_iff]
    intro i hi
    have hbit := congrArg (·.getLsbD (k + i)) h
    by_cases hlt : k + i < 64
    · have hmask : m.getLsbD (k + i) = true := by
        rw [hm _ hlt, inFields_iff]
        exact ⟨_, hf, by omega, by omega⟩
      simpa [hmask, hi] using hbit
    · simp [BitVec.getLsbD_of_ge _ _ (not_lt.mp hlt)]
  · intro h
    rw [and_mask_eq_iff]
    intro i hi
    cases hmask : m.getLsbD i with
    | false => simpa [hmask] using hvbits i hi
    | true =>
      rw [hm i hi, inFields_iff] at hmask
      obtain ⟨⟨k, n⟩, hf, hk, hn⟩ := hmask
      have hbit := (extractLsb'_eq_iff _ _ _ _).mp (h _ hf) (i - k) (by omega)
      have hi' : i - k < n := by omega
      simpa [hi', Nat.add_sub_cancel' hk] using hbit

theorem setcid_row_iff (w : CmdWord) :
    w &&& 0xFFFFFFFFFFFFFFFF#64 = 0x0100000000000000#64
      ↔ w.extractLsb' 56 8 = 0x01#8 ∧ w.extractLsb' 0 56 = 0#56 := by
  rw [and_mask_eq_iff_fields [(56, 8), (0, 56)] (by decide) (by decide)]
  simp

/-- The rows of `SETNAME`, `SETPRI` and `FLEN`, which differ in their opcode alone. -/
theorem immediate_row_iff {v : CmdWord} (hv : v &&& 0xFFFFFFFFFFFF0000#64 = v) (w : CmdWord) :
    w &&& 0xFFFFFFFFFFFF0000#64 = v
      ↔ w.extractLsb' 56 8 = v.extractLsb' 56 8 ∧ w.extractLsb' 16 40 = v.extractLsb' 16 40 := by
  rw [and_mask_eq_iff_fields [(56, 8), (16, 40)] (by decide) hv]
  simp

theorem data_row_iff (w : CmdWord) :
    w &&& 0xFF00000000FFFFFF#64 = 0x1000000000000000#64
      ↔ w.extractLsb' 56 8 = 0x10#8 ∧ w.extractLsb' 0 24 = 0#24 := by
  rw [and_mask_eq_iff_fields [(56, 8), (0, 24)] (by decide) (by decide)]
  simp

theorem sync_row_iff (w : CmdWord) :
    w &&& 0xFFFF000000FFFFFF#64 = 0x1100000000000000#64
      ↔ w.extractLsb' 56 8 = 0x11#8 ∧ w.extractLsb' 0 24 = 0#24 ∧ w.extractLsb' 48 8 = 0#8 := by
  rw [and_mask_eq_iff_fields [(56, 8), (0, 24), (48, 8)] (by decide) (by decide)]
  simp

theorem disc_row_iff (w : CmdWord) :
    w &&& 0xFFFF00FFFFFFFFFF#64 = 0x1200000000000000#64
      ↔ w.extractLsb' 56 8 = 0x12#8 ∧ w.extractLsb' 0 24 = 0#24 ∧ w.extractLsb' 48 8 = 0#8
        ∧ w.extractLsb' 24 16 = 0#16 := by
  rw [and_mask_eq_iff_fields [(56, 8), (0, 24), (48, 8), (24, 16)] (by decide) (by decide)]
  simp

/-! ### Illegal words -/

/-- A word is illegal when each row's opcode is missing or one of that row's must-be-zero fields is not 0. -/
theorem decode_illegal_iff (w : CmdWord) :
    decode w = .error .illegal ↔
      (w.extractLsb' 56 8 = 0x01#8 → w.extractLsb' 0 56 ≠ 0#56)
        ∧ (w.extractLsb' 56 8 = 0x02#8 → w.extractLsb' 16 40 ≠ 0#40)
        ∧ (w.extractLsb' 56 8 = 0x03#8 → w.extractLsb' 16 40 ≠ 0#40)
        ∧ (w.extractLsb' 56 8 = 0x10#8 → w.extractLsb' 0 24 ≠ 0#24)
        ∧ (w.extractLsb' 56 8 = 0x11#8 → w.extractLsb' 0 24 = 0#24 → w.extractLsb' 48 8 ≠ 0#8)
        ∧ (w.extractLsb' 56 8 = 0x12#8 → w.extractLsb' 0 24 = 0#24 → w.extractLsb' 48 8 = 0#8 →
            w.extractLsb' 24 16 ≠ 0#16)
        ∧ (w.extractLsb' 56 8 = 0x20#8 → w.extractLsb' 16 40 ≠ 0#40) := by
  have hsetname := immediate_row_iff (v := 0x0200000000000000#64) (by decide) w
  have hsetpri := immediate_row_iff (v := 0x0300000000000000#64) (by decide) w
  have hflen := immediate_row_iff (v := 0x2000000000000000#64) (by decide) w
  simp [decode_error_iff, opcodeMap, setcid_row_iff, hsetname, hsetpri, data_row_iff, sync_row_iff,
    disc_row_iff, hflen]

/-- An illegal word writes `STATUS` alone (30_encoding.md R95); `step_illegal` with the error's code put in. -/
theorem step_illegal_status {s : State} {w : CmdWord} {c : ErrorCode} {rest : List HostAction}
    (hdecode : decode w = .error c) (hhost : s.host = .cmd w :: rest) :
    step s = .next { s with host := rest, status := 0x72 } := by
  obtain ⟨rfl, -⟩ := (decode_error_iff w c).mp hdecode
  exact step_illegal hhost hdecode

/-- Settles O4: the opcode selects the one row whose must-be-zero fields decide the word
(`decode_illegal_iff`), and an illegal word's step is the error completion with `E_ILLEGAL`. -/
theorem illegalWords : Obligations.IllegalWords := by
  refine ⟨fun w => ?_, fun w c s rest hdecode hhost => step_illegal_status hdecode hhost⟩
  rw [decode_illegal_iff]
  generalize w.extractLsb' 56 8 = op
  by_cases hdefined : op ∈ [0x01#8, 0x02#8, 0x03#8, 0x10#8, 0x11#8, 0x12#8, 0x20#8]
  · simp only [List.mem_cons, List.not_mem_nil, or_false] at hdefined
    obtain rfl | rfl | rfl | rfl | rfl | rfl | rfl := hdefined <;> simp [imp_iff_not_or]
  · simp only [List.mem_cons, List.not_mem_nil, or_false, not_or] at hdefined
    simp [hdefined]

end Sys2Proof
end

section
/-! PROOFS. The reserved wire fields and the flags nibbles (30_encoding.md R112).

A successful encode command commits its list of fields, so each byte the rule names is read off the field that
lies there. -/

namespace Sys2Proof.Machine

/-! ### The bytes of one field -/

theorem flagsNibble_of_bytesAt {o : Buf 8 1144} {off len : Nat} (hlen : len ≤ 4095)
    (h : bytesAt o off (be16 (0x7000#16 ||| BitVec.ofNat 16 len))) : o.get off &&& 0xF0 = 0x70 :=
  (flagsAndLength_split hlen (bytesAt_flagsAndLength h hlen)).2

/-- Bits 4:0 of the Options Flags byte are 0, whatever the operand (30_encoding.md R103). -/
theorem wireOptions_reserved (opt : Byte) : wireOptions opt &&& 0x1F = 0x00 := by
  rw [wireOptions, BitVec.and_assoc]
  exact BitVec.and_zero

/-- The Flags-and-Length field of the root layer, which every packet starts with. -/
theorem rootFields_flagsNibble (o : Buf 8 1144) (vector : BitVec 32) {len : Nat} (s : State)
    (rest : List (List Byte)) (hlen : len ≤ 4095)
    (hl : (rootFields vector len s ++ rest).flatten.length ≤ 1144) :
    (o.overwrite (rootFields vector len s ++ rest).flatten).get 16 &&& 0xF0 = 0x70 :=
  flagsNibble_of_bytesAt hlen (bytesAt_field o hl (k := 1) rfl rfl)

/-! ### Each packet -/

theorem HasEffect.data_reserved {sync : Half} {seq opt : Byte} {s t : State}
    (h : HasEffect (.data sync seq opt) s t) :
    t.out.get 16 &&& 0xF0 = 0x70 ∧ t.out.get 38 &&& 0xF0 = 0x70 ∧ t.out.get 112 &&& 0x1F = 0x00
      ∧ t.out.get 115 &&& 0xF0 = 0x70 := by
  obtain ⟨-, -, rfl⟩ := h
  have hl : (dataFields sync seq opt s).flatten.length ≤ 1144 := by rw [length_dataFields]; omega
  obtain ⟨hframing, -⟩ := bytesAt_two (bytesAt_field s.out hl (k := 4) (off := 38) rfl
    (by simp [dataFields, rootFields, packetPreamble]))
  have hoptions := bytesAt_one (bytesAt_field s.out hl (k := 10) (off := 112) rfl
    (by simp [dataFields, rootFields, packetPreamble]))
  obtain ⟨hdmp, -⟩ := bytesAt_two (bytesAt_field s.out hl (k := 12) (off := 115) rfl
    (by simp [dataFields, rootFields, packetPreamble]))
  rw [commitPacket_out, hframing, hoptions, hdmp]
  exact ⟨rootFields_flagsNibble s.out _ s _ (by omega) hl, rfl, wireOptions_reserved opt, rfl⟩

theorem HasEffect.sync_reserved {sync : Half} {seq : Byte} {s t : State}
    (h : HasEffect (.sync sync seq) s t) :
    t.out.get 16 &&& 0xF0 = 0x70 ∧ t.out.get 38 &&& 0xF0 = 0x70 ∧ t.out.get 47 = 0x00
      ∧ t.out.get 48 = 0x00 := by
  cases h
  have hl : (syncFields sync seq s).flatten.length ≤ 1144 := by rw [length_syncFields]; omega
  obtain ⟨hframing, -⟩ := bytesAt_two (bytesAt_field s.out hl (k := 4) (off := 38) rfl
    (by simp [syncFields, rootFields, packetPreamble]))
  have hreserved := bytesAt_two (bytesAt_field s.out hl (k := 8) (off := 47) rfl
    (by simp [syncFields, rootFields, packetPreamble]))
  rw [commitPacket_out, hframing]
  exact ⟨rootFields_flagsNibble s.out _ s _ (by omega) hl, rfl, hreserved⟩

theorem HasEffect.disc_reserved {seq : Byte} {s t : State} (h : HasEffect (.disc seq) s t) :
    t.out.get 16 &&& 0xF0 = 0x70 ∧ t.out.get 38 &&& 0xF0 = 0x70
      ∧ (∀ k < 4, t.out.get (108 + k) = 0x00) ∧ t.out.get 112 &&& 0xF0 = 0x70 := by
  obtain ⟨hn, -, rfl⟩ := h
  have hl : (discFields s).flatten.length ≤ 1144 := by rw [length_discFields hn]; omega
  have hreserved : bytesAt (s.out.overwrite (discFields s).flatten) 108 (List.replicate 4 0x00) :=
    bytesAt_field s.out hl (k := 7) rfl (by simp [discFields, rootFields, packetPreamble])
  refine ⟨rootFields_flagsNibble s.out _ s _ (by omega) hl,
    flagsNibble_of_bytesAt (len := 82 + 2 * s.uCnt.toNat) (by omega)
      (bytesAt_field s.out hl (k := 4) rfl (by simp [discFields, rootFields, packetPreamble])),
    fun k hk => ?_,
    flagsNibble_of_bytesAt (len := 8 + 2 * s.uCnt.toNat) (by omega)
      (bytesAt_field s.out hl (k := 8) rfl (by simp [discFields, rootFields, packetPreamble]))⟩
  rw [commitPacket_out, hreserved k hk, List.getD_replicate _ hk]

/-- Settles O24: a command that reports success had its effect, and each encode command's effect is its packet,
read field by field. -/
theorem reservedWireFieldsAreZero : Obligations.ReservedWireFieldsAreZero := by
  intro i s t hencode hexec hstatus
  have heffect := hasEffect_of_success hexec hstatus
  cases i with
  | data sync seq opt =>
    obtain ⟨hroot, hframing, hreserved⟩ := heffect.data_reserved
    exact ⟨hroot, hframing, fun _ _ _ _ => hreserved, nofun, nofun⟩
  | sync sync seq =>
    obtain ⟨hroot, hframing, hreserved⟩ := heffect.sync_reserved
    exact ⟨hroot, hframing, nofun, fun _ _ _ => hreserved, nofun⟩
  | disc seq =>
    obtain ⟨hroot, hframing, hreserved⟩ := heffect.disc_reserved
    exact ⟨hroot, hframing, nofun, nofun, fun _ _ => hreserved⟩
  | setcid | setname | setpri | flen => cases hencode

end Sys2Proof.Machine
end

section
/-! PROOFS. The length calculator: `FL` and `FLEN` (40_length_calculator.md R130, R135), and the length fields
of a packet (R131).

A length field holds what is left of the packet from that field on, so one lemma about committed fields
(`countsToEnd_commitPacket`) reads each of them off its packet's list of fields. -/

namespace Sys2Proof.Machine

/-! ### `FL` -/

/-- The wire bytes of a Flags-and-Length value (30_encoding.md R100). -/
theorem be16_flagsAndLength (len : Nat) :
    be16 (0x7000#16 ||| BitVec.ofNat 16 len)
      = [0x70#8 ||| BitVec.ofNat 8 (len / 256), BitVec.ofNat 8 len] := by
  have hhigh : (BitVec.ofNat 16 len).extractLsb' 8 8 = BitVec.ofNat 8 (len / 256) := by
    apply BitVec.eq_of_toNat_eq
    simp only [BitVec.extractLsb'_toNat, BitVec.toNat_ofNat, Nat.shiftRight_eq_div_pow]
    omega
  have hlow : (BitVec.ofNat 16 len).extractLsb' 0 8 = BitVec.ofNat 8 len := by
    apply BitVec.eq_of_toNat_eq
    simp only [BitVec.extractLsb'_toNat, BitVec.toNat_ofNat, Nat.shiftRight_zero]
    omega
  obtain ⟨hflags, hzero⟩ :
      (0x7000#16).extractLsb' 8 8 = 0x70#8 ∧ (0x7000#16).extractLsb' 0 8 = 0#8 := by decide
  rw [be16, BitVec.extractLsb'_or, BitVec.extractLsb'_or, hhigh, hlow, hflags, hzero, BitVec.zero_or]

/-- A layer encoder takes its length through `FL` first, so it fails where `FL` fails. -/
theorem flagsAndLength_bind_error {len : Nat} (h : 4095 < len)
    (layer : Half → Except ErrorCode (List Byte)) : flagsAndLength len >>= layer = .error .length := by
  rw [flagsAndLength_error h]
  rfl

/-- Settles O13: `FL` on both sides of 4095, its value as a sum and as two bytes, and each layer encoder as a
continuation of `FL`. -/
theorem flagsAndLengthValue : Obligations.FlagsAndLengthValue := by
  refine ⟨fun _ h => flagsAndLength_error h,
    fun len h => ⟨_, flagsAndLength_ok h, rfl, toNat_flagsAndLength h, be16_flagsAndLength len⟩,
    fun len vector sync seq opt s h => ⟨?_, ?_, ?_, ?_, ?_, ?_⟩⟩
  all_goals exact flagsAndLength_bind_error h _

/-! ### `FLEN` -/

/-- The word with an immediate put below the bits `v` of a row of format I is in that row. -/
theorem or_imm_and_mask {v : CmdWord} (hv : v &&& 0xFFFFFFFFFFFF0000#64 = v) (imm : Half) :
    (v ||| imm.setWidth 64) &&& 0xFFFFFFFFFFFF0000#64 = v := by
  have himm : imm.setWidth 64 &&& 0xFFFFFFFFFFFF0000#64 = 0#64 := by
    rw [and_mask_eq_iff_fields [(16, 48)] (by decide) (by decide)]
    simp [extractLsb'_eq_iff]
  rw [BitVec.and_or_distrib_right, hv, himm, BitVec.or_zero]

/-- The immediate is read back from the word it was put in. -/
theorem immField_or_imm {v : CmdWord} (hv : immField v = 0) (imm : Half) :
    immField (v ||| imm.setWidth 64) = imm := by
  unfold immField at hv ⊢
  rw [BitVec.extractLsb'_or, hv, BitVec.extractLsb'_setWidth_of_le (by decide),
    BitVec.extractLsb'_eq_self]
  exact BitVec.zero_or

/-- `FLEN` is the last row of the opcode map. -/
theorem decode_flen (len : Half) :
    decode (0x2000000000000000#64 ||| len.setWidth 64) = .ok (.flen len) := by
  have hmatch := or_imm_and_mask (v := 0x2000000000000000#64) (by decide) len
  rw [decode_of_matching_row (List.getLast_mem (l := opcodeMap) (by decide)) hmatch]
  exact congrArg (Except.ok ∘ Instr.flen) (immField_or_imm (by decide) len)

/-- Settles O15: the word is in `FLEN`'s row, and the command completes one way on each side of 4095. -/
theorem flenCommand : Obligations.FlenCommand := fun len s =>
  ⟨decode_flen len, fun h => execFlen_ok h s, fun h => execFlen_error h s⟩

/-! ### The length fields of a packet -/

/-- The low twelve bits of the field at `off` count the bytes from `off` to the packet's end. -/
def CountsToEnd (t : State) (off : Nat) : Prop :=
  (t.out.get off &&& 0x0F).toNat * 256 + (t.out.get (off + 1)).toNat + off = t.outLen.toNat

/-- Field `k` of a committed packet, when it is the Flags-and-Length of all that lies at or after it. -/
theorem countsToEnd_commitPacket {fields : List (List Byte)} (s : State) {k off len : Nat}
    (hl : fields.flatten.length ≤ 1144)
    (hk : fields[k]? = some (be16 (0x7000#16 ||| BitVec.ofNat 16 len)))
    (ho : (fields.take k).flatten.length = off) (hend : len + off = fields.flatten.length) :
    CountsToEnd (commitPacket fields.flatten s) off := by
  have hlen : len ≤ 4095 := by omega
  have hfield := bytesAt_field s.out hl hk ho
  obtain ⟨hlow, -⟩ := flagsAndLength_split hlen (bytesAt_flagsAndLength hfield hlen)
  rw [CountsToEnd, commitPacket_out, hlow, commitPacket_outLen, BitVec.toNat_ofNat,
    Nat.mod_eq_of_lt (by omega), hend]

theorem HasEffect.data_countsToEnd {sync : Half} {seq opt : Byte} {s t : State}
    (h : HasEffect (.data sync seq opt) s t) :
    CountsToEnd t 16 ∧ CountsToEnd t 38 ∧ CountsToEnd t 115 := by
  obtain ⟨-, -, rfl⟩ := h
  have hl := length_dataFields sync seq opt s
  exact ⟨countsToEnd_commitPacket s (by omega) (k := 1) (len := 622) rfl rfl hl.symm,
    countsToEnd_commitPacket s (by omega) (k := 4) (len := 600) rfl
      (by simp [dataFields, rootFields, packetPreamble]) hl.symm,
    countsToEnd_commitPacket s (by omega) (k := 12) (len := 523) rfl
      (by simp [dataFields, rootFields, packetPreamble]) hl.symm⟩

theorem HasEffect.sync_countsToEnd {sync : Half} {seq : Byte} {s t : State}
    (h : HasEffect (.sync sync seq) s t) : CountsToEnd t 16 ∧ CountsToEnd t 38 := by
  cases h
  have hl := length_syncFields sync seq s
  exact ⟨countsToEnd_commitPacket s (by omega) (k := 1) (len := 33) rfl rfl hl.symm,
    countsToEnd_commitPacket s (by omega) (k := 4) (len := 11) rfl
      (by simp [syncFields, rootFields, packetPreamble]) hl.symm⟩

theorem HasEffect.disc_countsToEnd {seq : Byte} {s t : State} (h : HasEffect (.disc seq) s t) :
    CountsToEnd t 16 ∧ CountsToEnd t 38 ∧ CountsToEnd t 112 := by
  obtain ⟨hn, -, rfl⟩ := h
  have hl := length_discFields hn
  exact ⟨countsToEnd_commitPacket s (by omega) (k := 1) rfl rfl (by omega),
    countsToEnd_commitPacket s (by omega) (k := 4) rfl
      (by simp [discFields, rootFields, packetPreamble]) (by omega),
    countsToEnd_commitPacket s (by omega) (k := 8) rfl
      (by simp [discFields, rootFields, packetPreamble]) (by omega)⟩

/-- Settles O23: a command that reports success had its effect, and each of its packet's length fields is the
Flags-and-Length of what lies from there to the end. -/
theorem lengthFieldsCountToPacketEnd : Obligations.LengthFieldsCountToPacketEnd := by
  intro i s t hencode hexec hstatus
  have heffect := hasEffect_of_success hexec hstatus
  cases i with
  | data sync seq opt =>
    obtain ⟨hroot, hframing, hdmp⟩ := heffect.data_countsToEnd
    exact ⟨hroot, hframing, fun _ _ _ _ => hdmp, nofun⟩
  | sync sync seq =>
    obtain ⟨hroot, hframing⟩ := heffect.sync_countsToEnd
    exact ⟨hroot, hframing, nofun, nofun⟩
  | disc seq =>
    obtain ⟨hroot, hframing, hudl⟩ := heffect.disc_countsToEnd
    exact ⟨hroot, hframing, nofun, fun _ _ => hudl⟩
  | setcid | setname | setpri | flen => cases hencode

end Sys2Proof.Machine
end

section
/-! PROOFS. The configuration commands (41_config_commands.md R150 to R155).

Each command's answer is its completion on either side of its check. The identity is read back through the
location map, and the inversion of the step shows which action can change it. -/

namespace Sys2Proof.Machine

/-! ### Command words -/

/-- A row whose mask leaves the immediate free decodes every immediate put below its bits
(30_encoding.md R92, R93). -/
theorem decode_or_imm {r : OpcodeRow} (hr : r ∈ opcodeMap) (hmask : r.mask = 0xFFFFFFFFFFFF0000#64)
    (hbits : r.bits &&& 0xFFFFFFFFFFFF0000#64 = r.bits) (imm : Half) :
    decode (r.bits ||| imm.setWidth 64) = .ok (r.build (r.bits ||| imm.setWidth 64)) :=
  decode_of_matching_row hr (hmask ▸ or_imm_and_mask hbits imm)

/-- `SETNAME` is the second row of the opcode map. -/
theorem decode_setname (n : Half) :
    decode (0x0200000000000000#64 ||| n.setWidth 64) = .ok (.setname n) :=
  (decode_or_imm (List.getElem_mem (l := opcodeMap) (n := 1) (by decide)) rfl (by decide) n).trans
    (congrArg (Except.ok ∘ Instr.setname) (immField_or_imm (by decide) n))

/-- `SETPRI` is the third row of the opcode map. -/
theorem decode_setpri (p : Half) :
    decode (0x0300000000000000#64 ||| p.setWidth 64) = .ok (.setpri p) :=
  (decode_or_imm (List.getElem_mem (l := opcodeMap) (n := 2) (by decide)) rfl (by decide) p).trans
    (congrArg (Except.ok ∘ Instr.setpri) (immField_or_imm (by decide) p))

/-- The row of `SETCID` fixes every bit, and no other row builds `SETCID`. -/
theorem decode_setcid_iff (w : CmdWord) : decode w = .ok .setcid ↔ w = 0x0100000000000000 := by
  constructor
  · intro hdecode
    obtain ⟨r, hr, hmatch, hbuild⟩ := decode_ok_row hdecode
    simp only [opcodeMap, List.mem_cons, List.not_mem_nil, or_false] at hr
    obtain rfl | rfl | rfl | rfl | rfl | rfl | rfl := hr
    · exact BitVec.and_allOnes.symm.trans hmatch
    all_goals cases hbuild
  · rintro rfl
    exact decode_of_matching_row (List.head_mem (l := opcodeMap) (by decide)) (by decide)

/-! ### Each command's answer -/

/-- The low byte of a 16-bit operand below 256 is the whole operand. -/
theorem toNat_lowByte {v : Half} (h : v.toNat < 256) : (v.extractLsb' 0 8).toNat = v.toNat := by
  rw [BitVec.extractLsb'_toNat, Nat.shiftRight_zero, Nat.mod_eq_of_lt h]

theorem nameLengthOk_eq_false {n : Half} (h : n.toNat = 0 ∨ 64 ≤ n.toNat) : nameLengthOk n = false := by
  rw [Bool.eq_false_iff, ne_eq, nameLengthOk_iff]
  omega

theorem priorityOk_eq_false {p : Half} (h : 200 < p.toNat) : priorityOk p = false := by
  rw [Bool.eq_false_iff, ne_eq, priorityOk_iff]
  omega

/-- Settles O16: one word alone is `SETCID`'s (`decode_setcid_iff`), and its sixteen bytes are the staged
ones. -/
theorem setcidCommand : Obligations.SetcidCommand :=
  ⟨decode_setcid_iff, fun s => ⟨_, rfl, rfl, fun _ hi => stagedCid_get s hi⟩⟩

/-- Settles O17: an accepted length stores the padded name and fits `NAMELEN`, any other raises `E_NAME`. -/
theorem setnameCommand : Obligations.SetnameCommand := by
  refine fun n s => ⟨decode_setname n, fun haccepted => ?_, fun hrefused => ?_⟩
  · exact ⟨_, execSetname_ok ((nameLengthOk_iff n).mpr haccepted) s, rfl, toNat_lowByte (by omega),
      fun _ hi => stagedName_get n.toNat s hi⟩
  · exact execSetname_error (nameLengthOk_eq_false hrefused) s

/-- Settles O18: a priority of at most 200 is stored and fits its byte, any other raises `E_PRIORITY`. -/
theorem setpriCommand : Obligations.SetpriCommand := by
  refine fun p s => ⟨decode_setpri p, fun haccepted => ⟨?_, toNat_lowByte (by omega)⟩, fun hrefused => ?_⟩
  · exact execSetpri_ok ((priorityOk_iff p).mpr haccepted) s
  · exact execSetpri_error (priorityOk_eq_false hrefused) s

/-! ### The frame of the configuration commands -/

/-- Settles O34: each effect is an update of its own part of the identity and of `STATUS`; a command that did
not report success raised an error, and as no encode command it keeps `OUTLEN` too. -/
theorem configurationCommandFrame : Obligations.ConfigurationCommandFrame := by
  intro i s hconfig
  have hencode : isEncode i = false := by
    obtain rfl | ⟨n, rfl⟩ | ⟨p, rfl⟩ := hconfig <;> rfl
  obtain ⟨t, hexec, heffect⟩ | ⟨c, hexec, -⟩ := exec_cases i s
  · refine ⟨t, hexec, ?_, fun hfailed => absurd heffect.status_eq hfailed⟩
    obtain rfl | ⟨n, rfl⟩ | ⟨p, rfl⟩ := hconfig
    · cases heffect; rfl
    · obtain ⟨-, rfl⟩ := heffect; rfl
    · obtain ⟨-, rfl⟩ := heffect; rfl
  · rw [hencode] at hexec
    exact ⟨_, hexec, rfl, fun _ => rfl⟩

/-! ### The name accessors -/

/-- `RD` at an element's address reads that element (20_memory.md R61, R64). -/
theorem readLoc_of_toNat_eq {loc : Loc} {e : Element} (h : loc.toNat = elementAddr e) (s : State) :
    readLoc loc s = readElement e s := by
  simp only [readLoc, locate_of_toNat_eq h]

theorem readLoc_nameLen (s : State) : readLoc 0x049 s = s.nameLen.setWidth 16 :=
  readLoc_of_toNat_eq (e := .nameLen) rfl s

theorem readLoc_srcName (s : State) {i : Nat} (hi : i < 64) :
    readLoc (BitVec.ofNat 12 (0x080 + i)) s = (s.srcName.get i).setWidth 16 :=
  readLoc_of_toNat_eq (e := .srcName ⟨i, hi⟩) (toNat_loc (a := 0x080 + i) (by omega)) s

/-- Settles O19: the accessors read the length and the bytes that the successful `SETNAME` stored. -/
theorem nameIsReadBack : Obligations.NameIsReadBack := by
  intro n s t hmin hmax hexec
  cases (execSetname_ok ((nameLengthOk_iff n).mpr ⟨hmin, hmax⟩) s).symm.trans hexec
  refine ⟨?length, fun i hi => ?staged, fun i hi hpast => ?padding⟩
  case length =>
    rw [readLoc_nameLen]
    apply BitVec.eq_of_toNat_eq
    rw [BitVec.toNat_setWidth_of_le (by decide)]
    exact toNat_lowByte (by omega)
  case staged =>
    rw [readLoc_srcName _ (by omega), succeed_srcName, stagedName_get _ _ (by omega), if_pos hi]
  case padding =>
    rw [readLoc_srcName _ hi, succeed_srcName, stagedName_get _ _ hi, if_neg (by omega)]
    rfl

/-! ### What changes the identity -/

/-- `t` has the SourceIdentity of `s` (10_state.md R21 to R24). -/
structure SameIdentity (s t : State) : Prop where
  cid : t.cid = s.cid
  srcName : t.srcName = s.srcName
  nameLen : t.nameLen = s.nameLen
  priority : t.priority = s.priority

/-- The identity is read-only to the host (20_memory.md R63). -/
theorem sameIdentity_hostWrite (loc : Loc) (v : Half) (s : State) :
    SameIdentity s (hostWrite loc v s) := by
  rw [hostWrite_frame]
  exact ⟨rfl, rfl, rfl, rfl⟩

/-- The identity changes only in a step that resets the block or runs a command that has its effect. -/
theorem step_identity_cases {s t : State} (h : step s = .next t) :
    SameIdentity s t ∨ ∃ rest, s.host = .reset :: rest
      ∨ ∃ w i, s.host = .cmd w :: rest ∧ decode w = .ok i ∧ HasEffect i (takeAction rest s) t := by
  obtain ⟨-, rfl⟩ | ⟨rest, ⟨w, i, hhost, hdecode, hexec⟩ | ⟨w, -, -, rfl⟩ | ⟨loc, v, -, rfl⟩
    | ⟨loc, -, rfl⟩ | ⟨hhost, -⟩⟩ := step_cases h
  · exact .inl ⟨rfl, rfl, rfl, rfl⟩
  · obtain heffect | ⟨c, rfl, -⟩ := exec_next_cases hexec
    · exact .inr ⟨rest, .inr ⟨w, i, hhost, hdecode, heffect⟩⟩
    · exact .inl ⟨rfl, rfl, rfl, rfl⟩
  · exact .inl ⟨rfl, rfl, rfl, rfl⟩
  · obtain ⟨hcid, hname, hlength, hpriority⟩ := sameIdentity_hostWrite loc v (takeAction rest s)
    exact .inl ⟨hcid, hname, hlength, hpriority⟩
  · exact .inl ⟨rfl, rfl, rfl, rfl⟩
  · exact .inr ⟨rest, .inl hhost⟩

/-- Each part of the identity has one command whose effect can change it (10_state.md R42). -/
theorem HasEffect.identity_writer {i : Instr} {s t : State} (h : HasEffect i s t) :
    (t.cid ≠ s.cid → i = .setcid)
      ∧ (t.srcName ≠ s.srcName ∨ t.nameLen ≠ s.nameLen → ∃ n, i = .setname n)
      ∧ (t.priority ≠ s.priority → ∃ p, i = .setpri p) := by
  cases i with
  | setcid => cases h; simp
  | setname n => obtain ⟨-, rfl⟩ := h; simp
  | setpri p => obtain ⟨-, rfl⟩ := h; simp
  | data sync seq opt => obtain ⟨-, -, rfl⟩ := h; simp
  | sync sync seq => cases h; simp
  | disc seq => obtain ⟨-, -, rfl⟩ := h; simp
  | flen len => obtain ⟨-, rfl⟩ := h; simp

/-- Settles O38: a step that changes the identity is a `RESET` or a command that had its effect
(`step_identity_cases`), and the changed part names the command (`HasEffect.identity_writer`). -/
theorem identityChangesOnlyByItsOwnCommand : Obligations.IdentityChangesOnlyByItsOwnCommand := by
  intro s t hstep
  obtain hsame | ⟨rest, hreset | ⟨w, i, hhost, hdecode, heffect⟩⟩ := step_identity_cases hstep
  · exact ⟨absurd hsame.cid, fun hchanged => hchanged.elim (absurd hsame.srcName) (absurd hsame.nameLen),
      absurd hsame.priority⟩
  · exact ⟨fun _ => ⟨rest, .inl hreset⟩, fun _ => ⟨rest, .inl hreset⟩, fun _ => ⟨rest, .inl hreset⟩⟩
  · obtain ⟨hcid, hname, hpriority⟩ := heffect.identity_writer
    have hsuccess := heffect.status_eq
    refine ⟨fun hchanged => ?cid, fun hchanged => ?name, fun hchanged => ?priority⟩
    case cid =>
      obtain rfl := hcid hchanged
      exact ⟨rest, .inr ⟨w, hhost, hdecode⟩⟩
    case name =>
      obtain ⟨n, rfl⟩ := hname hchanged
      exact ⟨rest, .inr ⟨w, n, hhost, hdecode, hsuccess⟩⟩
    case priority =>
      obtain ⟨p, rfl⟩ := hpriority hchanged
      exact ⟨rest, .inr ⟨w, p, hhost, hdecode, hsuccess⟩⟩

end Sys2Proof.Machine
end

section
/-! PROOFS. What an encode command reads and what it leaves alone (43_packet_commands.md R204, R205).

A packet is worked out from the elements read and from nothing else, and committing it or raising its error
gives the same outcome on top of any state. No completion of a command writes an operand. -/

namespace Sys2Proof.Machine

/-! ### Inputs are never modified -/

/-- `t` has the operand elements of `s` (10_state.md R25 to R32). -/
structure SameOperands (s t : State) : Prop where
  stg : t.stg = s.stg
  slot : t.slot = s.slot
  slotCnt : t.slotCnt = s.slotCnt
  univ : t.univ = s.univ
  uList : t.uList = s.uList
  uCnt : t.uCnt = s.uCnt
  page : t.page = s.page
  lastPage : t.lastPage = s.lastPage

theorem HasEffect.sameOperands {i : Instr} {s t : State} (h : HasEffect i s t) : SameOperands s t := by
  cases i with
  | setcid => cases h; constructor <;> rfl
  | setname n => obtain ⟨-, rfl⟩ := h; constructor <;> rfl
  | setpri p => obtain ⟨-, rfl⟩ := h; constructor <;> rfl
  | data sync seq opt => obtain ⟨-, -, rfl⟩ := h; constructor <;> rfl
  | sync sync seq => cases h; constructor <;> rfl
  | disc seq => obtain ⟨-, -, rfl⟩ := h; constructor <;> rfl
  | flen len => obtain ⟨-, rfl⟩ := h; constructor <;> rfl

/-- No command writes an operand, whether it succeeds or fails. -/
theorem exec_sameOperands {i : Instr} {s t : State} (h : exec i s = .next t) : SameOperands s t := by
  obtain heffect | ⟨c, rfl, -⟩ := exec_next_cases h
  · exact heffect.sameOperands
  · constructor <;> rfl

theorem exec_encode_eq_finishEncode {i : Instr} (hi : isEncode i = true) (s : State) :
    ∃ result, exec i s = finishEncode result s := by
  cases i with
  | data sync seq opt => exact ⟨dataPacket sync seq opt s, rfl⟩
  | sync sync seq => exact ⟨syncPacket sync seq s, rfl⟩
  | disc seq => exact ⟨discPacket s, rfl⟩
  | setcid | setname | setpri | flen => cases hi

/-- An encode command ends by writing the packet, `OUTLEN` and `STATUS` alone (43_packet_commands.md R200). -/
theorem exec_encode_frame {i : Instr} (hi : isEncode i = true) {s t : State} (h : exec i s = .next t) :
    SameIdentity s t ∧ t.flRes = s.flRes := by
  obtain ⟨result, hfinish⟩ := exec_encode_eq_finishEncode hi s
  rw [hfinish] at h
  cases result <;> cases h <;> exact ⟨⟨rfl, rfl, rfl, rfl⟩, rfl⟩

/-- Settles O33: the command completes (`exec_cases`) and keeps the operands (`exec_sameOperands`) and the port
(`exec_port`); an encode command keeps the identity and `FLRES` too (`exec_encode_frame`). -/
theorem inputsAreNeverModified : Obligations.InputsAreNeverModified := by
  intro i s
  obtain ⟨t, hexec⟩ : ∃ t, exec i s = .next t := by
    obtain ⟨t, hexec, -⟩ | ⟨c, hexec, -⟩ := exec_cases i s <;> exact ⟨_, hexec⟩
  obtain ⟨hstg, hslot, hslotCnt, huniv, huList, huCnt, hpage, hlastPage⟩ := exec_sameOperands hexec
  obtain ⟨hhost, hreturned⟩ := exec_port hexec
  refine ⟨t, hexec, hstg, hslot, hslotCnt, huniv, huList, huCnt, hpage, hlastPage, hhost, hreturned,
    fun hencode => ?_⟩
  obtain ⟨⟨hcid, hsrcName, hnameLen, hpriority⟩, hflRes⟩ := exec_encode_frame hencode hexec
  exact ⟨hcid, hsrcName, hnameLen, hpriority, hflRes⟩

/-! ### The packet is worked out from what the command reads -/

theorem buildRoot_congr {s₁ s₂ : State} (hcid : s₁.cid = s₂.cid) (vector : BitVec 32) (len : Nat) :
    buildRoot vector len s₁ = buildRoot vector len s₂ := by
  simp only [buildRoot, hcid]

theorem dataPacket_congr {s₁ s₂ : State} (hcid : s₁.cid = s₂.cid) (hslotCnt : s₁.slotCnt = s₂.slotCnt)
    (huniv : s₁.univ = s₂.univ) (hslot : s₁.slot = s₂.slot) (hsrcName : s₁.srcName = s₂.srcName)
    (hpriority : s₁.priority = s₂.priority) (sync : Half) (seq opt : Byte) :
    dataPacket sync seq opt s₁ = dataPacket sync seq opt s₂ := by
  simp only [dataPacket, validateData, buildRoot_congr hcid, buildFramingData, buildDmp, hslotCnt, huniv,
    hslot, hsrcName, hpriority]

theorem syncPacket_congr {s₁ s₂ : State} (hcid : s₁.cid = s₂.cid) (sync : Half) (seq : Byte) :
    syncPacket sync seq s₁ = syncPacket sync seq s₂ := by
  simp only [syncPacket, buildRoot_congr hcid]

/-- The numbers advertised are the first `UCNT` entries of `ULIST`, read one by one. -/
theorem advertised_eq_map {s : State} (h : s.uCnt.toNat ≤ 512) :
    advertised s = (List.range s.uCnt.toNat).map s.uList.get := by
  refine List.ext_getElem (by simp [length_advertised s h]) fun i hi _ => ?_
  have hi' : i < s.uCnt.toNat := length_advertised s h ▸ hi
  rw [← List.getD_eq_getElem _ 0 hi, getD_advertised s hi', List.getElem_map, List.getElem_range]

theorem advertised_congr {s₁ s₂ : State} (hn : s₁.uCnt.toNat ≤ 512) (huCnt : s₁.uCnt = s₂.uCnt)
    (huList : ∀ k < s₁.uCnt.toNat, s₁.uList.get k = s₂.uList.get k) : advertised s₁ = advertised s₂ := by
  rw [advertised_eq_map hn, advertised_eq_map (huCnt ▸ hn), ← huCnt]
  exact List.map_congr_left fun k hk => huList k (List.mem_range.mp hk)

/-- A count above 512 fails before any entry is read (43_packet_commands.md R203). -/
theorem discPacket_congr {s₁ s₂ : State} (hcid : s₁.cid = s₂.cid) (huCnt : s₁.uCnt = s₂.uCnt)
    (huList : ∀ k < s₁.uCnt.toNat, s₁.uList.get k = s₂.uList.get k) (hpage : s₁.page = s₂.page)
    (hlastPage : s₁.lastPage = s₂.lastPage) (hsrcName : s₁.srcName = s₂.srcName) :
    discPacket s₁ = discPacket s₂ := by
  by_cases hn : s₁.uCnt.toNat ≤ 512
  · simp only [discPacket, validateDisc, buildRoot_congr hcid, buildFramingDisc, buildUdl,
      advertised_congr hn huCnt huList, huCnt, hpage, hlastPage, hsrcName]
  · rw [discPacket_page (not_le.mp hn), discPacket_page (huCnt ▸ not_le.mp hn)]

/-! ### The same packet or error gives the same outcome -/

/-- What an encode command's issuer observes: `STATUS`, `OUTLEN` and the bytes below it (00_scope.md R4). -/
def SameOutcome (t₁ t₂ : State) : Prop :=
  t₁.status = t₂.status ∧ t₁.outLen = t₂.outLen ∧ ∀ k < t₁.outLen.toNat, t₁.out.get k = t₂.out.get k

/-- The bytes written do not depend on the buffer they are written to. -/
theorem Buf.get_overwrite_congr {w n : Nat} (b₁ b₂ : Buf w n) (bs : List (BitVec w)) {k : Nat}
    (hk : k < bs.length) : (b₁.overwrite bs).get k = (b₂.overwrite bs).get k := by
  by_cases hn : k < n
  · rw [Buf.get_overwrite b₁ bs hn, Buf.get_overwrite b₂ bs hn, if_pos hk, if_pos hk]
  · simp [Buf.get, hn]

theorem finishEncode_sameOutcome {r₁ r₂ : Except ErrorCode (List Byte)} (hr : r₁ = r₂)
    {s₁ s₂ t₁ t₂ : State} (h₁ : finishEncode r₁ s₁ = .next t₁) (h₂ : finishEncode r₂ s₂ = .next t₂) :
    SameOutcome t₁ t₂ := by
  subst hr
  cases r₁ with
  | ok packet =>
    cases h₁
    cases h₂
    refine ⟨rfl, rfl, fun k hk => Buf.get_overwrite_congr _ _ _ ?_⟩
    rw [commitPacket_outLen, BitVec.toNat_ofNat] at hk
    exact hk.trans_le (Nat.mod_le _ _)
  | error c =>
    cases h₁
    cases h₂
    exact ⟨rfl, rfl, fun k hk => absurd hk (Nat.not_lt_zero k)⟩

/-- Settles O26: states that agree on what the command reads give the same packet or the same error, and that
completes with the same outcome (`finishEncode_sameOutcome`). -/
theorem encodeOutcomeDependsOnWhatItReads : Obligations.EncodeOutcomeDependsOnWhatItReads := by
  rintro i s₁ s₂ t₁ t₂ hcid (⟨⟨sync, seq, opt, rfl⟩, hslotCnt, huniv, hslot, hsrcName, hpriority⟩
    | ⟨sync, seq, rfl⟩ | ⟨⟨seq, rfl⟩, huCnt, huList, hpage, hlastPage, hsrcName⟩) h₁ h₂
  · have hpacket := dataPacket_congr hcid hslotCnt huniv hslot hsrcName hpriority sync seq opt
    exact finishEncode_sameOutcome hpacket h₁ h₂
  · exact finishEncode_sameOutcome (syncPacket_congr hcid sync seq) h₁ h₂
  · have hpacket := discPacket_congr hcid huCnt huList hpage hlastPage hsrcName
    exact finishEncode_sameOutcome hpacket h₁ h₂

end Sys2Proof.Machine
end

section
/-! PROOFS. The packet commands (43_packet_commands.md R201 to R203, the layouts of 30_encoding.md part B).

A command's word is read back field by field. A committed packet lies in `OUT` from index 0 on, so cutting its
list of fields one field at a time gives each field its offset (`bytesAt_flatten_cons`). -/

namespace Sys2Proof.Machine

/-! ### Command words -/

/-- An operand put at bit `k` of a word is read back there (30_encoding.md R96). -/
theorem extractLsb'_shiftLeft_self {n k : Nat} (v : BitVec n) (h : k + n ≤ 64) :
    (v.setWidth 64 <<< k).extractLsb' k n = v := by
  rw [extractLsb'_eq_iff]
  intro i hi
  have hlt : k + i < 64 := by omega
  simp [hlt]

/-- An operand put at bit `k` of a word is not seen in a field beside its own. -/
theorem extractLsb'_shiftLeft_disjoint {n k j m : Nat} (v : BitVec n) (h : j + m ≤ k ∨ k + n ≤ j) :
    (v.setWidth 64 <<< k).extractLsb' j m = 0#m := by
  rw [extractLsb'_eq_iff]
  intro i hi
  obtain hbelow | habove := h
  · have hlt : j + i < k := by omega
    simp [hlt]
  · have hge : n ≤ j + i - k := by omega
    simp [BitVec.getLsbD_of_ge v _ hge]

theorem decode_data (sync : Half) (seq opt : Byte) :
    decode (0x1000000000000000#64 ||| opt.setWidth 64 <<< 48 ||| seq.setWidth 64 <<< 40
      ||| sync.setWidth 64 <<< 24) = .ok (.data sync seq opt) := by
  rw [decode_of_matching_row (List.getElem_mem (l := opcodeMap) (n := 3) (by decide))
    ((data_row_iff _).mpr ?row)]
  case row => simp [BitVec.extractLsb'_or, extractLsb'_shiftLeft_disjoint]
  simp [opcodeMap, syncField, seqField, optField, BitVec.extractLsb'_or, extractLsb'_shiftLeft_self,
    extractLsb'_shiftLeft_disjoint]

theorem decode_sync (sync : Half) (seq : Byte) :
    decode (0x1100000000000000#64 ||| seq.setWidth 64 <<< 40 ||| sync.setWidth 64 <<< 24)
      = .ok (.sync sync seq) := by
  rw [decode_of_matching_row (List.getElem_mem (l := opcodeMap) (n := 4) (by decide))
    ((sync_row_iff _).mpr ?row)]
  case row => simp [BitVec.extractLsb'_or, extractLsb'_shiftLeft_disjoint]
  simp [opcodeMap, syncField, seqField, BitVec.extractLsb'_or, extractLsb'_shiftLeft_self,
    extractLsb'_shiftLeft_disjoint]

theorem decode_disc (seq : Byte) :
    decode (0x1200000000000000#64 ||| seq.setWidth 64 <<< 40) = .ok (.disc seq) := by
  rw [decode_of_matching_row (List.getElem_mem (l := opcodeMap) (n := 5) (by decide))
    ((disc_row_iff _).mpr ?row)]
  case row => simp [BitVec.extractLsb'_or, extractLsb'_shiftLeft_disjoint]
  simp [opcodeMap, seqField, BitVec.extractLsb'_or, extractLsb'_shiftLeft_self]

/-! ### The fields of a committed packet -/

theorem bytesAt_append {o : Buf 8 1144} {off : Nat} {as bs : List Byte} :
    bytesAt o off (as ++ bs) ↔ bytesAt o off as ∧ bytesAt o (off + as.length) bs := by
  simp only [bytesAt, List.length_append]
  refine ⟨fun h => ⟨fun k hk => ?_, fun k hk => ?_⟩, fun ⟨ha, hb⟩ k hk => ?_⟩
  · rw [h k (by omega), List.getD_append _ _ _ _ hk]
  · rw [Nat.add_assoc, h _ (by omega), List.getD_append_right _ _ _ _ (by omega),
      Nat.add_sub_cancel_left]
  · by_cases hlt : k < as.length
    · rw [ha k hlt, List.getD_append _ _ _ _ hlt]
    · obtain ⟨j, rfl⟩ := Nat.exists_eq_add_of_le (not_lt.mp hlt)
      rw [← Nat.add_assoc, hb j (by omega), List.getD_append_right _ _ _ _ (by omega),
        Nat.add_sub_cancel_left]

/-- Fields one after another: the first lies at the offset, the others right after it. -/
theorem bytesAt_flatten_cons {o : Buf 8 1144} {off : Nat} {f : List Byte} {fs : List (List Byte)} :
    bytesAt o off (f :: fs).flatten ↔ bytesAt o off f ∧ bytesAt o (off + f.length) fs.flatten := by
  rw [List.flatten_cons, bytesAt_append]

theorem bytesAt_commitPacket {packet : List Byte} (h : packet.length ≤ 1144) (s : State) :
    bytesAt (commitPacket packet s).out 0 packet := by
  intro k hk
  rw [Nat.zero_add, commitPacket_out, Buf.get_overwrite_lt s.out hk h]

theorem commitPacket_out_kept {packet : List Byte} {n : Nat} (h : packet.length = n) (s : State) :
    ∀ i < 1144, n ≤ i → (commitPacket packet s).out.get i = s.out.get i :=
  fun _ hi hn => Buf.get_overwrite_ge s.out (h ▸ hn) hi

theorem commitPacket_frame {packet : List Byte} {n : Nat} (h : packet.length = n) (s : State) :
    commitPacket packet s
      = { s with out := (commitPacket packet s).out, outLen := BitVec.ofNat 16 n, status := 0x01 } := by
  rw [← h]
  rfl

/-- The root layer, which every packet starts with (30_encoding.md R101). -/
theorem rootFields_layout {o : Buf 8 1144} {vector : BitVec 32} {len : Nat} {s : State}
    {rest : List (List Byte)} (h : bytesAt o 0 (rootFields vector len s ++ rest).flatten) :
    bytesAt o 0 packetPreamble ∧ bytesAt o 16 (be16 (0x7000#16 ||| BitVec.ofNat 16 len))
      ∧ bytesAt o 18 (be32 vector) ∧ (∀ i < 16, o.get (22 + i) = s.cid.get i)
      ∧ bytesAt o 38 rest.flatten := by
  simp only [rootFields, List.cons_append, List.nil_append, bytesAt_flatten_cons, length_be16,
    length_be32, Buf.length_cells] at h
  obtain ⟨hpreamble, hlength, hvector, hcid, hrest⟩ := h
  exact ⟨hpreamble, hlength, hvector, bytesAt_cells hcid, hrest⟩

/-- The three fields of the root layer before its length (30_encoding.md R101). -/
theorem packetPreamble_layout {o : Buf 8 1144} (h : bytesAt o 0 packetPreamble) :
    bytesAt o 0 [0x00, 0x10] ∧ bytesAt o 2 [0x00, 0x00] ∧ bytesAt o 4 acnId := by
  have hsplit : packetPreamble = [0x00, 0x10] ++ ([0x00, 0x00] ++ acnId) := rfl
  rw [hsplit, bytesAt_append, bytesAt_append] at h
  exact h

/-! ### `DATA` -/

theorem universeOk_eq_false {u : Half} (h : u.toNat < 1 ∨ 63999 < u.toNat) : universeOk u = false := by
  rw [Bool.eq_false_iff, ne_eq, universeOk_iff]
  omega

/-- Settles O20: the two checks fail in their order (`exec_of_raises`), and a command that passes them commits the
data packet, whose fields are read off one by one. -/
theorem dataCommand : Obligations.DataCommand := by
  refine fun sync seq opt s => ⟨decode_data sync seq opt, fun hslots => ?count,
    fun hslots huniv => ?range, fun hslots hmin hmax => ?packet⟩
  case count => exact exec_of_raises (i := .data sync seq opt) (.inl ⟨hslots, rfl⟩)
  case range =>
    exact exec_of_raises (i := .data sync seq opt) (.inr ⟨hslots, universeOk_eq_false huniv, rfl⟩)
  case packet =>
    have hlength := length_dataFields sync seq opt s
    have hbytes := bytesAt_commitPacket (hlength.trans_le (by decide)) s
    obtain ⟨hpreamble, hrootLength, hrootVector, hcid, hrest⟩ := rootFields_layout hbytes
    simp only [bytesAt_flatten_cons, length_be16, List.length_cons, List.length_nil, Buf.length_cells,
      Nat.reduceAdd] at hrest
    obtain ⟨hframingLength, hframingVector, hsrcName, hpriority, hsync, hseq, hopt, huniv, hdmpLength,
      hdmpVector, hdmpType, hfirst, hincrement, hcount, hstart, hslot, -⟩ := hrest
    obtain ⟨hsizes, hpostamble, hacnId⟩ := packetPreamble_layout hpreamble
    exact ⟨_, exec_of_hasEffect ⟨hslots, (universeOk_iff _).mpr ⟨hmin, hmax⟩, rfl⟩,
      commitPacket_frame hlength s, commitPacket_out_kept hlength s,
      hsizes, hpostamble, hacnId, hrootLength, hrootVector, hcid,
      hframingLength, hframingVector, bytesAt_cells hsrcName, bytesAt_one hpriority, hsync,
      bytesAt_one hseq, bytesAt_one hopt, huniv,
      hdmpLength, bytesAt_one hdmpVector, bytesAt_one hdmpType, hfirst, hincrement, hcount,
      bytesAt_one hstart, bytesAt_cells hslot⟩

/-! ### `SYNC` -/

/-- Settles O21: `SYNC` makes no check (`execSync_eq`), and its packet is read off field by field. -/
theorem syncCommand : Obligations.SyncCommand := by
  refine fun sync seq s => ⟨decode_sync sync seq, ?_⟩
  have hlength := length_syncFields sync seq s
  have hbytes := bytesAt_commitPacket (hlength.trans_le (by decide)) s
  obtain ⟨hpreamble, hrootLength, hrootVector, hcid, hrest⟩ := rootFields_layout hbytes
  simp only [bytesAt_flatten_cons, length_be16, List.length_cons, List.length_nil, Nat.reduceAdd] at hrest
  obtain ⟨hframingLength, hframingVector, hseq, hsync, hreserved, -⟩ := hrest
  exact ⟨_, execSync_eq sync seq s, commitPacket_frame hlength s, commitPacket_out_kept hlength s,
    hpreamble, hrootLength, hrootVector, hcid, hframingLength, hframingVector, bytesAt_one hseq, hsync,
    hreserved⟩

/-! ### `DISC` -/

/-- One listed number out of range fails the check of the whole list. -/
theorem all_universeOk_eq_false {s : State} (hn : s.uCnt.toNat ≤ 512)
    (h : ∃ i < s.uCnt.toNat, (s.uList.get i).toNat < 1 ∨ 63999 < (s.uList.get i).toNat) :
    (advertised s).all universeOk = false := by
  obtain ⟨i, hi, hrange⟩ := h
  rw [Bool.eq_false_iff, ne_eq, all_universeOk_iff s hn]
  intro hall
  obtain ⟨hmin, hmax⟩ := hall i hi
  omega

/-- The sorted list is non-decreasing by index. -/
theorem getD_sortAsc_le (l : List Half) {j k : Nat} (hjk : j ≤ k) (hk : k < l.length) :
    ((sortAsc l).getD j 0).toNat ≤ ((sortAsc l).getD k 0).toNat := by
  obtain rfl | hlt := hjk.eq_or_lt
  · exact le_rfl
  · have hk' : k < (sortAsc l).length := by rwa [length_sortAsc]
    rw [List.getD_eq_getElem _ _ (hlt.trans hk'), List.getD_eq_getElem _ _ hk']
    exact List.pairwise_iff_getElem.mp (sortAsc_pairwise l) j k _ hk' hlt

/-- Each entry of a serialised list takes two bytes, most significant first. -/
theorem bytesAt_flatMap_be16 {o : Buf 8 1144} {off : Nat} {l : List Half}
    (h : bytesAt o off (l.flatMap be16)) {k : Nat} (hk : k < l.length) :
    o.get (off + 2 * k) = (l.getD k 0).extractLsb' 8 8
      ∧ o.get (off + (2 * k + 1)) = (l.getD k 0).extractLsb' 0 8 := by
  obtain ⟨hhigh, hlow⟩ := getD_flatMap_be16 l k hk
  have hl := length_flatMap_be16 l
  rw [h _ (by omega), h _ (by omega)]
  exact ⟨hhigh, hlow⟩

/-- Settles O22: the two checks fail in their order (`exec_of_raises`), and a command that passes them commits the
discovery packet, whose list is the advertised one sorted (`sortAsc_perm`, `getD_sortAsc_le`). -/
theorem discCommand : Obligations.DiscCommand := by
  rintro seq s n rfl
  refine ⟨decode_disc seq, fun hn => ?page, fun hn huniv => ?range, fun hn huniv => ?packet⟩
  case page => exact exec_of_raises (i := .disc seq) (.inl ⟨hn, rfl⟩)
  case range =>
    exact exec_of_raises (i := .disc seq) (.inr ⟨hn, all_universeOk_eq_false hn huniv, rfl⟩)
  case packet =>
    have hlength := length_discFields hn
    have hlist := length_advertised s hn
    have hbytes := bytesAt_commitPacket (hlength.trans_le (by omega)) s
    obtain ⟨hpreamble, hrootLength, hrootVector, hcid, hrest⟩ := rootFields_layout hbytes
    simp only [bytesAt_flatten_cons, length_be16, List.length_cons, List.length_nil, Buf.length_cells,
      Nat.reduceAdd] at hrest
    obtain ⟨hframingLength, hframingVector, hsrcName, hreserved, hudlLength, hudlVector, hpage,
      hlastPage, hentries, -⟩ := hrest
    refine ⟨_, sortAsc (advertised s), exec_of_hasEffect ⟨hn, (all_universeOk_iff s hn).mpr huniv, rfl⟩,
      commitPacket_frame hlength s, commitPacket_out_kept hlength s,
      hpreamble, bytesAt_flagsAndLength hrootLength (by omega), hrootVector, hcid,
      bytesAt_flagsAndLength hframingLength (by omega), hframingVector, bytesAt_cells hsrcName, hreserved,
      bytesAt_flagsAndLength hudlLength (by omega), hudlVector, bytesAt_one hpage, bytesAt_one hlastPage,
      advertised_eq_map hn ▸ sortAsc_perm _, fun j k hjk hk => getD_sortAsc_le _ hjk (hlist ▸ hk),
      fun k hk => ?_⟩
    have hentry := bytesAt_flatMap_be16 hentries (k := k) (by rwa [length_sortAsc, hlist])
    rwa [show 120 + (2 * k + 1) = 121 + 2 * k by omega] at hentry

end Sys2Proof.Machine
end

section
/-! PROOFS. What a failed command changes (60_exceptions.md R233).

The one completion that sets `ERR` is `raiseError`. It clears `OUTLEN` for an encode command, and the encode
commands that can raise an error are `DATA` and `DISC`. -/

namespace Sys2Proof.Machine

/-- The causes are numbered 1 to 7 (60_exceptions.md R231). -/
theorem errorNumber_range (c : ErrorCode) : 1 ≤ (errorNumber c).toNat ∧ (errorNumber c).toNat ≤ 7 := by
  cases c <;> decide

theorem HasEffect.errBit_eq {i : Instr} {s t : State} (h : HasEffect i s t) : errBit t.status = false := by
  rw [h.status_eq]
  rfl

/-- The word is a `DATA` or a `DISC`, the two commands whose error clears `OUTLEN` (60_exceptions.md R233). -/
def IsDataOrDisc (w : CmdWord) : Prop :=
  (∃ sync seq opt, decode w = .ok (.data sync seq opt)) ∨ ∃ seq, decode w = .ok (.disc seq)

/-- The third encode command, `SYNC`, makes no check and so raises nothing (43_packet_commands.md R202). -/
theorem Raises.isEncode_iff {w : CmdWord} {i : Instr} {s : State} {c : ErrorCode} (h : Raises i s c)
    (hdecode : decode w = .ok i) : isEncode i = true ↔ IsDataOrDisc w := by
  cases i with
  | data | disc | setname | setpri | flen => simp [isEncode, IsDataOrDisc, hdecode]
  | setcid | sync => cases h

theorem not_isDataOrDisc_of_illegal {w : CmdWord} (h : decode w = .error .illegal) : ¬ IsDataOrDisc w := by
  simp [IsDataOrDisc, h]

/-- The inversion of a failed command: it completed by `raiseError`, which clears `OUTLEN` for a `DATA` and a
`DISC`. -/
theorem perform_cmd_failed {s t : State} {w : CmdWord} (h : perform (.cmd w) s = .next t)
    (herr : errBit t.status = true) :
    ∃ c clears, t = raiseError clears c s ∧ (clears = true ↔ IsDataOrDisc w) := by
  obtain ⟨i, hdecode, hexec⟩ | ⟨hdecode, rfl⟩ := perform_cmd_cases h
  · obtain heffect | ⟨c, rfl, hraises⟩ := exec_next_cases hexec
    · exact absurd (heffect.errBit_eq.symm.trans herr) Bool.false_ne_true
    · exact ⟨c, isEncode i, rfl, hraises.isEncode_iff hdecode⟩
  · exact ⟨.illegal, false, rfl, by simp [not_isDataOrDisc_of_illegal hdecode]⟩

/-- Settles O31: the step raised an error (`perform_cmd_failed`), whose code is one of the seven and which
writes `STATUS` and, for a `DATA` and a `DISC`, `OUTLEN`. -/
theorem failedCommandChangesOnlyStatusAndOutlen :
    Obligations.FailedCommandChangesOnlyStatusAndOutlen := by
  intro s t w rest hhost hstep herr
  rw [step_action hhost] at hstep
  obtain ⟨c, clears, rfl, hclears⟩ := perform_cmd_failed hstep herr
  obtain ⟨hmin, hmax⟩ := errorNumber_range c
  exact ⟨errorNumber c, if clears then 0 else s.outLen, hmin, hmax, rfl,
    fun hpacket => if_pos (hclears.mpr hpacket),
    fun hother => if_neg fun htrue => hother (hclears.mp htrue)⟩

end Sys2Proof.Machine
end

section
/-! PROOFS. The encoder and the decoder agree (30_encoding.md part A).

A row fixes the bits its mask covers and takes its operands from the rest, so a word and the word its command
encodes to agree on every field of the format, and so on every bit. -/

namespace Sys2Proof

open Machine

/-! ### From a command to its word and back -/

/-- Settles O1: one lemma per command gives what its word decodes to. -/
theorem decodeOfEncode : Obligations.DecodeOfEncode := by
  intro i
  cases i with
  | setcid => exact (decode_setcid_iff _).mpr rfl
  | setname n => exact decode_setname n
  | setpri p => exact decode_setpri p
  | data sync seq opt => exact decode_data sync seq opt
  | sync sync seq => exact decode_sync sync seq
  | disc seq => exact decode_disc seq
  | flen len => exact decode_flen len

/-! ### From a word to its command and back -/

/-- Words that agree on the opcode, on bits 55:16 and on the immediate are equal (30_encoding.md R93). -/
theorem eq_of_immediate_fields {w v : CmdWord} (hop : w.extractLsb' 56 8 = v.extractLsb' 56 8)
    (hzero : w.extractLsb' 16 40 = v.extractLsb' 16 40) (himm : immField w = immField v) : w = v := by
  have hmask := (and_mask_eq_iff_fields (m := BitVec.allOnes 64) (v := v) [(56, 8), (16, 40), (0, 16)]
    (by decide) BitVec.and_allOnes w).mpr (by simpa using ⟨hop, hzero, himm⟩)
  rwa [BitVec.and_allOnes] at hmask

/-- Words that agree on each field of format P are equal (30_encoding.md R91). -/
theorem eq_of_packet_fields {w v : CmdWord} (hop : w.extractLsb' 56 8 = v.extractLsb' 56 8)
    (hopt : optField w = optField v) (hseq : seqField w = seqField v) (hsync : syncField w = syncField v)
    (hzero : w.extractLsb' 0 24 = v.extractLsb' 0 24) : w = v := by
  have hmask := (and_mask_eq_iff_fields (m := BitVec.allOnes 64) (v := v)
    [(56, 8), (48, 8), (40, 8), (24, 16), (0, 24)] (by decide) BitVec.and_allOnes w).mpr
    (by simpa using ⟨hop, hopt, hseq, hsync, hzero⟩)
  rwa [BitVec.and_allOnes] at hmask

/-- A word in a row of format I is the row's bits with the word's own immediate put in. -/
theorem or_immField_eq {v w : CmdWord} (hv : v &&& 0xFFFFFFFFFFFF0000#64 = v) (hv0 : immField v = 0)
    (h : w &&& 0xFFFFFFFFFFFF0000#64 = v) : v ||| (immField w).setWidth 64 = w := by
  obtain ⟨hop, hzero⟩ := (immediate_row_iff hv w).mp h
  obtain ⟨hop', hzero'⟩ := (immediate_row_iff hv _).mp (or_imm_and_mask hv (immField w))
  exact eq_of_immediate_fields (hop'.trans hop.symm) (hzero'.trans hzero.symm) (immField_or_imm hv0 _)

theorem encode_data_of_row {w : CmdWord} (h : w &&& 0xFF00000000FFFFFF#64 = 0x1000000000000000#64) :
    encode (.data (syncField w) (seqField w) (optField w)) = w := by
  obtain ⟨hop, hzero⟩ := (data_row_iff w).mp h
  apply eq_of_packet_fields <;>
    simp [hop, hzero, encode, syncField, seqField, optField, BitVec.extractLsb'_or,
      extractLsb'_shiftLeft_self, extractLsb'_shiftLeft_disjoint]

theorem encode_sync_of_row {w : CmdWord} (h : w &&& 0xFFFF000000FFFFFF#64 = 0x1100000000000000#64) :
    encode (.sync (syncField w) (seqField w)) = w := by
  obtain ⟨hop, hzero, hopt⟩ := (sync_row_iff w).mp h
  apply eq_of_packet_fields <;>
    simp [hop, hzero, hopt, encode, syncField, seqField, optField, BitVec.extractLsb'_or,
      extractLsb'_shiftLeft_self, extractLsb'_shiftLeft_disjoint]

theorem encode_disc_of_row {w : CmdWord} (h : w &&& 0xFFFF00FFFFFFFFFF#64 = 0x1200000000000000#64) :
    encode (.disc (seqField w)) = w := by
  obtain ⟨hop, hzero, hopt, hsync⟩ := (disc_row_iff w).mp h
  apply eq_of_packet_fields <;>
    simp [hop, hzero, hopt, hsync, encode, syncField, seqField, optField, BitVec.extractLsb'_or,
      extractLsb'_shiftLeft_self, extractLsb'_shiftLeft_disjoint]

/-- Settles O2: an accepted word is in a row, and in each row the operands taken from the word give it back. -/
theorem encodeOfDecode : Obligations.EncodeOfDecode := by
  intro w i hdecode
  obtain ⟨r, hr, hmatch, rfl⟩ := decode_ok_row hdecode
  simp only [opcodeMap, List.mem_cons, List.not_mem_nil, or_false] at hr
  obtain rfl | rfl | rfl | rfl | rfl | rfl | rfl := hr
  · exact ((decode_setcid_iff w).mp hdecode).symm
  · exact or_immField_eq (by decide) (by decide) hmatch
  · exact or_immField_eq (by decide) (by decide) hmatch
  · exact encode_data_of_row hmatch
  · exact encode_sync_of_row hmatch
  · exact encode_disc_of_row hmatch
  · exact or_immField_eq (by decide) (by decide) hmatch

/-! ### The decoder and the formats' fields -/

theorem exists_decode_ok_iff (w : CmdWord) : (∃ i, decode w = .ok i) ↔ decode w ≠ .error .illegal := by
  cases hdecode : decode w with
  | ok i => simp
  | error c => simp [((decode_error_iff w c).mp hdecode).1]

/-- Format I's must-be-zero field and `SETCID`'s unused immediate are all of bits 55:0. -/
theorem low56_eq_zero_iff (w : CmdWord) :
    w.extractLsb' 0 56 = 0#56 ↔ w.extractLsb' 16 40 = 0#40 ∧ w.extractLsb' 0 16 = 0#16 := by
  have hwhole := and_mask_eq_iff_fields (m := 0x00FFFFFFFFFFFFFF#64) (v := 0) [(0, 56)]
    (by decide) (by decide) w
  have hparts := and_mask_eq_iff_fields (m := 0x00FFFFFFFFFFFFFF#64) (v := 0) [(16, 40), (0, 16)]
    (by decide) (by decide) w
  simpa using hwhole.symm.trans hparts

/-- Settles O5: for each opcode the row's must-be-zero fields (`decode_illegal_iff`) are the format's own and
those of the operands the command does not take. -/
theorem decoderAcceptsWellFormedWords : Obligations.DecoderAcceptsWellFormedWords := by
  intro w
  simp only [exists_decode_ok_iff, ne_eq, decode_illegal_iff, low56_eq_zero_iff, wellFormedWord]
  generalize w.extractLsb' 56 8 = op
  by_cases hdefined : op ∈ [0x01#8, 0x02#8, 0x03#8, 0x10#8, 0x11#8, 0x12#8, 0x20#8]
  · simp only [List.mem_cons, List.not_mem_nil, or_false] at hdefined
    obtain rfl | rfl | rfl | rfl | rfl | rfl | rfl := hdefined <;>
      simp [formatOf, zeroFieldClear, unusedOperandsClear]
  · simp only [List.mem_cons, List.not_mem_nil, or_false, not_or] at hdefined
    simp [hdefined, formatOf]

/-- Settles O6: each word is computed. -/
theorem specExampleWordsDecode : Obligations.SpecExampleWordsDecode := by
  unfold Obligations.SpecExampleWordsDecode
  decide

end Sys2Proof
end

section
/-! PROOFS. The host port: the order of the actions, `RESET`, and what `RD` returns before and after a `WR`
(20_memory.md, 70_reset_and_hazards.md R260).

An action at the head of the port is performed whole. A location's element lives at its address, so a read is a
read of that element and a write to another location does not reach it. -/

namespace Sys2Proof.Machine

/-! ### One action a step -/

@[simp] theorem hostWrite_host (loc : Loc) (v : Half) (s : State) : (hostWrite loc v s).host = s.host := by
  rw [hostWrite_frame]

@[simp] theorem hostWrite_returned (loc : Loc) (v : Half) (s : State) :
    (hostWrite loc v s).returned = s.returned := by
  rw [hostWrite_frame]

/-- Every command completes (60_exceptions.md R230). -/
theorem exec_completes (i : Instr) (s : State) : ∃ t, exec i s = .next t := by
  obtain ⟨t, hexec, -⟩ | ⟨c, hexec, -⟩ := exec_cases i s
  · exact ⟨t, hexec⟩
  · exact ⟨_, hexec⟩

/-- A command word, legal or not, completes and leaves the port alone. -/
theorem hostCommand_port (w : CmdWord) (s : State) :
    ∃ t, hostCommand w s = .next t ∧ t.host = s.host ∧ t.returned = s.returned := by
  unfold hostCommand
  cases decode w with
  | ok i =>
    obtain ⟨t, hexec⟩ := exec_completes i s
    exact ⟨t, hexec, exec_port hexec⟩
  | error c => exact ⟨_, rfl, rfl, rfl⟩

/-- Every action completes; it takes nothing from the port, and it answers the host only if it is a read. -/
theorem perform_port (a : HostAction) (s : State) :
    ∃ t, perform a s = .next t ∧ t.host = s.host ∧ ((∀ loc, a ≠ .rd loc) → t.returned = s.returned)
      ∧ ∀ loc, a = .rd loc → ∃ v, t.returned = v :: s.returned := by
  cases a with
  | wr loc v => exact ⟨_, rfl, hostWrite_host loc v s, fun _ => hostWrite_returned loc v s, nofun⟩
  | rd loc => exact ⟨_, rfl, rfl, fun hne => absurd rfl (hne loc), fun _ _ => ⟨_, rfl⟩⟩
  | cmd w =>
    obtain ⟨t, hcommand, hhost, hreturned⟩ := hostCommand_port w s
    exact ⟨t, hcommand, hhost, fun _ => hreturned, nofun⟩
  | reset => exact ⟨_, rfl, rfl, fun _ => rfl, nofun⟩

/-- Settles O8: an idle step is no change, and any other step performs the action it takes off the port
(`perform_port`). -/
theorem actionsApplyInOrder : Obligations.ActionsApplyInOrder := by
  refine ⟨fun _ hidle => step_idle hidle, fun s a rest hhost => ?_⟩
  rw [step_action hhost]
  exact perform_port a (takeAction rest s)

/-- Settles O7: the action taken off the port is the command word, whose decoding is known. -/
theorem stepRunsDecodedCommand : Obligations.StepRunsDecodedCommand := by
  intro s w rest i hhost hdecode
  rw [step_action hhost, perform, hostCommand, hdecode]
  rfl

/-! ### `RESET` -/

theorem hasResetValues_reset : HasResetValues State.reset where
  cid i _ := Buf.get_zero i
  srcName i _ := Buf.get_zero i
  nameLen := rfl
  priority := rfl
  stg i _ := Buf.get_zero i
  slot i _ := Buf.get_zero i
  slotCnt := rfl
  univ := rfl
  uList i _ := Buf.get_zero i
  uCnt := rfl
  page := rfl
  lastPage := rfl
  out i _ := Buf.get_zero i
  outLen := rfl
  status := rfl
  flRes := rfl

/-- Settles O9: every element is the reset state's (`hasResetValues_reset`), also after a `RESET` action, which
keeps the host's two lists. -/
theorem resetGivesEveryResetValue : Obligations.ResetGivesEveryResetValue :=
  ⟨hasResetValues_reset, fun _ _ hhost =>
    ⟨_, step_action hhost, { hasResetValues_reset with }, rfl, rfl⟩⟩

/-! ### `RD` -/

theorem readLoc_unmapped {loc : Loc} (h : unmapped loc.toNat) (s : State) : readLoc loc s = 0x0000 := by
  rw [readLoc, locate_unmapped h]

/-- Settles O11: the step answers with `readLoc`, which at an element's address reads that element
(`readLoc_of_toNat_eq`). -/
theorem hostReadReturns : Obligations.HostReadReturns := by
  intro s loc rest hhost
  exact ⟨readLoc loc (takeAction rest s), step_action hhost,
    fun h => readLoc_of_toNat_eq (e := .stg ⟨loc.toNat, h⟩) rfl _,
    fun h => readLoc_of_toNat_eq (e := .univ) h _,
    fun h => readLoc_of_toNat_eq (e := .slotCnt) h _,
    fun h => readLoc_of_toNat_eq (e := .uCnt) h _,
    fun h => readLoc_of_toNat_eq (e := .page) h _,
    fun h => readLoc_of_toNat_eq (e := .lastPage) h _,
    fun h => readLoc_of_toNat_eq (e := .priority) h _,
    fun h => readLoc_of_toNat_eq (e := .nameLen) h _,
    fun h => readLoc_of_toNat_eq (e := .status) h _,
    fun h => readLoc_of_toNat_eq (e := .outLen) h _,
    fun h => readLoc_of_toNat_eq (e := .flRes) h _,
    fun h => readLoc_of_toNat_eq (e := .cid ⟨loc.toNat - 0x050, by omega⟩)
      (Nat.add_sub_cancel' h.1).symm _,
    fun h => readLoc_of_toNat_eq (e := .srcName ⟨loc.toNat - 0x080, by omega⟩)
      (Nat.add_sub_cancel' h.1).symm _,
    fun h => readLoc_of_toNat_eq (e := .slot ⟨loc.toNat - 0x200, by omega⟩)
      (Nat.add_sub_cancel' h.1).symm _,
    fun h => readLoc_of_toNat_eq (e := .uList ⟨loc.toNat - 0x400, by omega⟩)
      (Nat.add_sub_cancel' h.1).symm _,
    fun h => readLoc_of_toNat_eq (e := .out ⟨loc.toNat - 0x800, by omega⟩)
      (Nat.add_sub_cancel' h.1).symm _,
    fun h => readLoc_unmapped h _⟩

/-! ### `RD` after `WR` -/

/-- An 8-bit location widens the low byte of what was written (20_memory.md R63, R64). -/
theorem setWidth_lowByte (v : Half) : (v.extractLsb' 0 8).setWidth 16 = v &&& 0x00FF := by
  apply BitVec.eq_of_toNat_eq
  have hmask := Nat.and_two_pow_sub_one_eq_mod v.toNat 8
  rw [BitVec.toNat_setWidth_of_le (by decide), BitVec.toNat_and, BitVec.extractLsb'_toNat,
    Nat.shiftRight_zero]
  exact hmask.symm

theorem readLoc_hostWrite_of_toNat_eq {loc : Loc} {e : Element} (h : loc.toNat = elementAddr e) (v : Half)
    (s : State) : readLoc loc (hostWrite loc v s) = readElement e (writeElement e v s) := by
  rw [readLoc_of_toNat_eq h, hostWrite_of_toNat_eq h]

/-- No two locations share an element, so a write to one is not seen at another. -/
theorem readLoc_hostWrite_ne {loc loc' : Loc} (hne : loc' ≠ loc) (v : Half) (s : State) :
    readLoc loc' (hostWrite loc v s) = readLoc loc' s := by
  unfold readLoc hostWrite
  cases hloc : locate loc with
  | none => rfl
  | some e =>
    cases hloc' : locate loc' with
    | none => rfl
    | some e' =>
      refine readElement_writeElement_ne (fun heq => hne ?_) v s
      exact locate_inj (heq ▸ hloc') hloc

theorem readLoc_hostWrite_byte {loc : Loc} (h : loc.toNat < 0x040 ∨ loc.toNat = 0x043 ∨ loc.toNat = 0x044
      ∨ (0x200 ≤ loc.toNat ∧ loc.toNat ≤ 0x3FF)) (v : Half) (s : State) :
    readLoc loc (hostWrite loc v s) = v &&& 0x00FF := by
  rw [← setWidth_lowByte]
  obtain h | h | h | h := h
  · rw [readLoc_hostWrite_of_toNat_eq (e := .stg ⟨loc.toNat, h⟩) rfl]
    exact congrArg (BitVec.setWidth 16) (Buf.get_set_self _ h _)
  · exact readLoc_hostWrite_of_toNat_eq (e := .page) h v s
  · exact readLoc_hostWrite_of_toNat_eq (e := .lastPage) h v s
  · rw [readLoc_hostWrite_of_toNat_eq (e := .slot ⟨loc.toNat - 0x200, by omega⟩)
      (Nat.add_sub_cancel' h.1).symm]
    exact congrArg (BitVec.setWidth 16) (Buf.get_set_self _ (by omega) _)

theorem readLoc_hostWrite_half {loc : Loc} (h : (0x040 ≤ loc.toNat ∧ loc.toNat ≤ 0x042)
      ∨ (0x400 ≤ loc.toNat ∧ loc.toNat ≤ 0x5FF)) (v : Half) (s : State) :
    readLoc loc (hostWrite loc v s) = v := by
  obtain h | h := h
  · obtain h | h | h : loc.toNat = 0x040 ∨ loc.toNat = 0x041 ∨ loc.toNat = 0x042 := by omega
    · exact readLoc_hostWrite_of_toNat_eq (e := .univ) h v s
    · exact readLoc_hostWrite_of_toNat_eq (e := .slotCnt) h v s
    · exact readLoc_hostWrite_of_toNat_eq (e := .uCnt) h v s
  · rw [readLoc_hostWrite_of_toNat_eq (e := .uList ⟨loc.toNat - 0x400, by omega⟩)
      (Nat.add_sub_cancel' h.1).symm]
    exact Buf.get_set_self _ (by omega) _

/-- Settles O12: the written location reads back by its width, a dropped write changes nothing
(`hostWrite_eq_self`), and no other location is reached (`readLoc_hostWrite_ne`). -/
theorem readAfterWrite : Obligations.ReadAfterWrite := by
  refine fun s loc v => ⟨fun h => readLoc_hostWrite_byte h v s, fun h => readLoc_hostWrite_half h v s,
    fun h => ?_, fun _ hne => readLoc_hostWrite_ne hne v s⟩
  rw [hostWrite_eq_self h]

end Sys2Proof.Machine
end

section
/-! PROOFS. The invariant of every reachable state (10_state.md R40).

Each completion of a command keeps the invariant: a configuration command by the range it checks, an encode
command because every packet starts with the root layer, whose length field counts to the packet's end. A step
is a completion, an access of the host that writes operands alone, or a `RESET`. Item 3 speaks of the actions
since reset, so it is proved along the run: the actions still pending bound how an empty name came about. -/

namespace Sys2Proof.Machine

/-! ### The reset state -/

/-- Settles O40: the reset values are in range, no packet is held, and the name is empty. -/
theorem resetHasInvariant : Obligations.ResetHasInvariant where
  priority_le := by decide
  nameLen_le := by decide
  name_padded i _ _ := Buf.get_zero i
  outLen_legal := .inl rfl
  packet_preamble := nofun
  packet_flags := nofun
  packet_length := nofun
  status_value := by decide
  flRes_value := .inl rfl

/-! ### What keeps the invariant -/

theorem statusSuccess_mem_statusValues : statusSuccess ∈ statusValues := by decide

theorem statusError_mem_statusValues (c : ErrorCode) : statusError c ∈ statusValues := by
  cases c <;> decide

theorem inv_takeAction {s : State} (h : s.Inv) (rest : List HostAction) : (takeAction rest s).Inv :=
  { h with }

theorem inv_hostRead {s : State} (h : s.Inv) (loc : Loc) : (hostRead loc s).Inv := { h with }

theorem inv_hostWrite {s : State} (h : s.Inv) (loc : Loc) (v : Half) : (hostWrite loc v s).Inv := by
  rw [hostWrite_frame]
  exact { h with }

theorem inv_hostReset (s : State) : (hostReset s).Inv := { resetHasInvariant with }

/-- A failed command writes its code, and an `OUTLEN` it writes is 0. -/
theorem inv_raiseError {s : State} (h : s.Inv) (e : Bool) (c : ErrorCode) : (raiseError e c s).Inv := by
  cases e with
  | false => exact { h with status_value := statusError_mem_statusValues c }
  | true =>
    exact { h with
      outLen_legal := .inl rfl
      packet_preamble := nofun
      packet_flags := nofun
      packet_length := nofun
      status_value := statusError_mem_statusValues c }

/-- A packet of a legal length keeps the invariant when the root layer it starts with counts to its end. -/
theorem inv_commitPacket {s : State} (h : s.Inv) {vector : BitVec 32} {len : Nat} {rest : List (List Byte)}
    (hlegal : outLenLegal (len + 16))
    (hlength : (rootFields vector len s ++ rest).flatten.length = len + 16) :
    (commitPacket (rootFields vector len s ++ rest).flatten s).Inv := by
  have hcap : len + 16 ≤ 1144 := by unfold outLenLegal at hlegal; omega
  have hfits := hlength.trans_le hcap
  obtain ⟨hpreamble, -⟩ := rootFields_layout (bytesAt_commitPacket hfits s)
  have hcount : CountsToEnd (commitPacket (rootFields vector len s ++ rest).flatten s) 16 :=
    countsToEnd_commitPacket s hfits (k := 1) rfl rfl hlength.symm
  refine { h with
    outLen_legal := ?_
    packet_preamble := fun _ => hpreamble
    packet_flags := fun _ => rootFields_flagsNibble s.out vector s rest (by omega) hfits
    packet_length := fun _ => Nat.eq_sub_of_add_eq hcount
    status_value := statusSuccess_mem_statusValues }
  rwa [commitPacket_outLen, BitVec.toNat_ofNat, hlength, Nat.mod_eq_of_lt (by omega)]

/-- `SETNAME` stores a length in range and the padding past it (41_config_commands.md R152). -/
theorem HasEffect.setname_name {n : Half} {s t : State} (h : HasEffect (.setname n) s t) :
    1 ≤ n.toNat ∧ n.toNat ≤ 63 ∧ t.nameLen.toNat = n.toNat
      ∧ ∀ i < 64, t.srcName.get i = if i < n.toNat then s.stg.get i else 0x00 := by
  obtain ⟨hn, rfl⟩ := h
  obtain ⟨hmin, hmax⟩ := (nameLengthOk_iff n).mp hn
  exact ⟨hmin, hmax, toNat_lowByte (by omega), fun _ hi => stagedName_get n.toNat s hi⟩

/-- `toNat_flagsAndLength` for a length that is a 16-bit operand. -/
theorem toNat_flagsAndLength_half {len : Half} (h : len.toNat ≤ 4095) :
    (0x7000#16 ||| len).toNat = 0x7000 + len.toNat := by
  have hvalue := toNat_flagsAndLength h
  rwa [BitVec.ofNat_toNat, BitVec.setWidth_eq] at hvalue

/-- The flags nibble lies above a 12-bit length. -/
theorem flagsAndLength_flags {len : Half} (h : len.toNat ≤ 4095) :
    (0x7000#16 ||| len).extractLsb' 12 4 = 0x7#4 := by
  apply BitVec.eq_of_toNat_eq
  rw [BitVec.extractLsb'_toNat, toNat_flagsAndLength_half h, Nat.shiftRight_eq_div_pow, BitVec.toNat_ofNat]
  omega

theorem HasEffect.inv {i : Instr} {s t : State} (h : HasEffect i s t) (hinv : s.Inv) : t.Inv := by
  cases i with
  | setcid => cases h; exact { hinv with status_value := statusSuccess_mem_statusValues }
  | setname n =>
    obtain ⟨-, hmax, hlength, hname⟩ := h.setname_name
    obtain ⟨-, rfl⟩ := h
    exact { hinv with
      nameLen_le := hlength.trans_le hmax
      name_padded := fun i hi hpast => (hname i hi).trans (if_neg (by omega))
      status_value := statusSuccess_mem_statusValues }
  | setpri p =>
    obtain ⟨hp, rfl⟩ := h
    have hmax := (priorityOk_iff p).mp hp
    exact { hinv with
      priority_le := (toNat_lowByte (by omega)).trans_le hmax
      status_value := statusSuccess_mem_statusValues }
  | data sync seq opt =>
    obtain ⟨-, -, rfl⟩ := h
    exact inv_commitPacket hinv (by simp [outLenLegal]) (length_dataFields sync seq opt s)
  | sync sync seq =>
    cases h
    exact inv_commitPacket hinv (by simp [outLenLegal]) (length_syncFields sync seq s)
  | disc seq =>
    obtain ⟨hn, -, rfl⟩ := h
    have hlength := length_discFields hn
    exact inv_commitPacket hinv (by unfold outLenLegal; omega) (by rw [discFields] at hlength; omega)
  | flen len =>
    obtain ⟨hlen, rfl⟩ := h
    exact { hinv with
      status_value := statusSuccess_mem_statusValues
      flRes_value := .inr (flagsAndLength_flags hlen) }

/-- Settles O41: the cases of the step, each of which keeps the invariant. -/
theorem stepKeepsInvariant : Obligations.StepKeepsInvariant := by
  intro s t hinv hstep
  obtain ⟨-, rfl⟩ | ⟨rest, hcases⟩ := step_cases hstep
  · exact hinv
  have htaken := inv_takeAction hinv rest
  obtain ⟨w, i, -, -, hexec⟩ | ⟨w, -, -, rfl⟩ | ⟨loc, v, -, rfl⟩ | ⟨loc, -, rfl⟩ | ⟨-, rfl⟩ := hcases
  · obtain heffect | ⟨c, rfl, -⟩ := exec_next_cases hexec
    · exact heffect.inv htaken
    · exact inv_raiseError htaken (isEncode i) c
  · exact inv_raiseError htaken false .illegal
  · exact inv_hostWrite htaken loc v
  · exact inv_hostRead htaken loc
  · exact inv_hostReset _

/-! ### Runs -/

/-- The induction along a run that performs every pending action: what holds with none pending, and carries
over from the state after the next action, holds from every state. -/
theorem run_pending {motive : State → State → Prop} (idle : ∀ s, s.host = [] → motive s s)
    (next : ∀ s u t a rest, s.host = a :: rest → step s = .next u → u.host = rest → motive u t → motive s t)
    (s : State) : ∃ t, core.run s.host.length s = .next t ∧ motive s t := by
  induction hhost : s.host generalizing s with
  | nil => exact ⟨s, rfl, idle s hhost⟩
  | cons a rest ih =>
    obtain ⟨u, hstep, hrest, -⟩ := actionsApplyInOrder.2 s a rest hhost
    obtain ⟨t, hrun, hmotive⟩ := ih u hrest
    exact ⟨t, (run_succ hstep).trans hrun, next s u t a rest hhost hstep hrest hmotive⟩

/-! ### Where an empty name comes from (R40 item 3) -/

/-- The action is a `SETNAME` that succeeds; its check reads no state (41_config_commands.md R152). -/
def SetsName (a : HostAction) : Prop :=
  ∃ (w : CmdWord) (n : Half), a = .cmd w ∧ decode w = .ok (.setname n) ∧ nameLengthOk n = true

theorem HasEffect.nameLen_eq_zero {i : Instr} {s t : State} (h : HasEffect i s t) (hzero : t.nameLen = 0) :
    s.nameLen = 0 ∧ ∀ n, i ≠ .setname n := by
  have hnot : ∀ n, i ≠ .setname n := by
    rintro n rfl
    obtain ⟨hmin, -, hlength, -⟩ := h.setname_name
    rw [hzero] at hlength
    exact absurd hlength (Nat.ne_of_lt hmin)
  obtain ⟨-, hwriter, -⟩ := h.identity_writer
  refine ⟨by_contra fun hs => ?_, hnot⟩
  obtain ⟨n, hn⟩ := hwriter (.inr fun heq => hs (heq.symm.trans hzero))
  exact hnot n hn

/-- A command that leaves the name empty found it empty, and if it is a `SETNAME` it failed. -/
theorem exec_nameLen_eq_zero {i : Instr} {s t : State} (h : exec i s = .next t) (hzero : t.nameLen = 0) :
    s.nameLen = 0 ∧ ∀ n, i = .setname n → nameLengthOk n = false := by
  obtain heffect | ⟨c, rfl, hraises⟩ := exec_next_cases h
  · obtain ⟨hs, hnot⟩ := heffect.nameLen_eq_zero hzero
    exact ⟨hs, fun n hn => absurd hn (hnot n)⟩
  · refine ⟨hzero, ?_⟩
    rintro n rfl
    exact hraises.1

/-- An action that leaves the name empty is no successful `SETNAME`, and it found the name empty or is a
`RESET`. -/
theorem perform_nameLen_eq_zero {a : HostAction} {s t : State} (h : perform a s = .next t)
    (hzero : t.nameLen = 0) : ¬ SetsName a ∧ (a ≠ .reset → s.nameLen = 0) := by
  cases a with
  | wr loc v =>
    cases h
    obtain ⟨-, -, hsame, -⟩ := sameIdentity_hostWrite loc v s
    exact ⟨nofun, fun _ => hsame.symm.trans hzero⟩
  | rd loc => cases h; exact ⟨nofun, fun _ => hzero⟩
  | reset => exact ⟨nofun, fun hne => absurd rfl hne⟩
  | cmd w =>
    obtain ⟨i, hdecode, hexec⟩ | ⟨hdecode, rfl⟩ := perform_cmd_cases h
    · obtain ⟨hs, hfailed⟩ := exec_nameLen_eq_zero hexec hzero
      refine ⟨?_, fun _ => hs⟩
      rintro ⟨_, n, ⟨⟩, hsetname, haccepted⟩
      cases hdecode.symm.trans hsetname
      exact Bool.false_ne_true ((hfailed n rfl).symm.trans haccepted)
    · refine ⟨?_, fun _ => hzero⟩
      rintro ⟨_, n, ⟨⟩, hsetname, -⟩
      cases hdecode.symm.trans hsetname

/-- No successful `SETNAME` stands after the last `RESET` of the actions. -/
def NoNameSinceReset (actions : List HostAction) : Prop :=
  ∀ before a after, actions = before ++ a :: after → .reset ∉ after → ¬ SetsName a

theorem noNameSinceReset_cons {a : HostAction} {rest : List HostAction} (hrest : NoNameSinceReset rest)
    (ha : .reset ∉ rest → ¬ SetsName a) : NoNameSinceReset (a :: rest) := by
  rintro (_ | ⟨b, before⟩) c after hsplit hafter
  · cases hsplit
    exact ha hafter
  · cases hsplit
    exact hrest before c after rfl hafter

/-- When the name is empty after the pending actions of `s`, then no successful `SETNAME` stands after the last
`RESET` of them, and without a `RESET` among them the name is empty in `s`. -/
def EmptyNameExplained (s t : State) : Prop :=
  t.nameLen = 0 → NoNameSinceReset s.host ∧ (.reset ∉ s.host → s.nameLen = 0)

theorem emptyNameExplained_next {s u t : State} {a : HostAction} {rest : List HostAction}
    (hhost : s.host = a :: rest) (hstep : step s = .next u) (hrest : u.host = rest)
    (h : EmptyNameExplained u t) : EmptyNameExplained s t := by
  subst hrest
  intro hzero
  obtain ⟨hnone, hempty⟩ := h hzero
  have hperform : .reset ∉ u.host → ¬ SetsName a ∧ (a ≠ .reset → s.nameLen = 0) := fun hreset =>
    perform_nameLen_eq_zero (s := takeAction u.host s) ((step_action hhost).symm.trans hstep) (hempty hreset)
  rw [hhost]
  refine ⟨noNameSinceReset_cons hnone fun hreset => (hperform hreset).1, fun hreset => ?_⟩
  obtain ⟨hne, hreset⟩ := not_or.mp (mt List.mem_cons.mpr hreset)
  exact (hperform hreset).2 (Ne.symm hne)

/-- Settles O42: along the run (`run_pending`) every step keeps the invariant, and an empty name is explained by
the actions performed; an accepted length is all that `SETNAME` checks. -/
theorem reachableStates : Obligations.ReachableStates := by
  intro actions
  obtain ⟨t, hrun, hinv, hname⟩ := run_pending
    (motive := fun s t => (s.Inv → t.Inv) ∧ EmptyNameExplained s t)
    (fun s hidle => ⟨id, fun hzero => by simp [NoNameSinceReset, hidle, hzero]⟩)
    (fun s u t a rest hhost hstep hrest ⟨hinv, hname⟩ =>
      ⟨fun hs => hinv (stepKeepsInvariant s u hs hstep), emptyNameExplained_next hhost hstep hrest hname⟩)
    { State.reset with host := actions }
  refine ⟨t, hrun, hinv { resetHasInvariant with }, fun hzero before after w n hsplit hreset hdecode => ?_⟩
  have hnot := (hname hzero).1 before _ after hsplit hreset
  by_contra hrange
  exact hnot ⟨w, n, rfl, hdecode, (nameLengthOk_iff n).mpr (by omega)⟩

end Sys2Proof.Machine
end

section
/-! PROOFS. What a packet command leaves: the lengths, the vectors and the bytes of `OUT` it writes
(40_length_calculator.md section 3, 30_encoding.md R113, 10_state.md R33).

A successful encode command commits the fields of its packet. The two vectors are fields at fixed offsets, and
every byte past the packet is kept. -/

namespace Sys2Proof.Machine

/-! ### Lengths -/

theorem packetLen_disc (n : Nat) : packetLen (.disc n) = 120 + 2 * n := by
  simp only [packetLen, rootLen_disc, Config.rootPre]
  omega

/-- Settles O14: the lengths of a data and a sync packet are computed, those of a discovery packet grow by two
bytes an entry. -/
theorem pduLengths : Obligations.PduLengths :=
  ⟨⟨payLen_data, frameLen_data, rootLen_data, rfl⟩, ⟨payLen_sync, frameLen_sync, rootLen_sync, rfl⟩,
    fun n _ => ⟨payLen_disc n, frameLen_disc n, rootLen_disc n, packetLen_disc n⟩⟩

/-! ### The vectors -/

/-- What lies at an offset is one list of each length. -/
theorem bytesAt_iff_eq {o : Buf 8 1144} {off : Nat} {as : List Byte} (h : bytesAt o off as) {bs : List Byte}
    (hl : bs.length = as.length) : bytesAt o off bs ↔ bs = as := by
  refine ⟨fun h' => List.ext_getElem hl fun k hk hk' => ?_, fun heq => heq ▸ h⟩
  rw [← List.getD_eq_getElem _ 0 hk, ← List.getD_eq_getElem _ 0 hk', ← h k hk', ← h' k hk]

/-- The root vector and the framing vector of a committed packet (30_encoding.md R101, R108). -/
theorem commitPacket_vectors {vector : BitVec 32} {len : Nat} {s : State} {fl framing : List Byte}
    {rest : List (List Byte)} (hfl : fl.length = 2)
    (hfits : (rootFields vector len s ++ fl :: framing :: rest).flatten.length ≤ 1144) :
    bytesAt (commitPacket (rootFields vector len s ++ fl :: framing :: rest).flatten s).out 18 (be32 vector)
      ∧ bytesAt (commitPacket (rootFields vector len s ++ fl :: framing :: rest).flatten s).out 40 framing := by
  obtain ⟨-, -, hvector, -, hrest⟩ := rootFields_layout (bytesAt_commitPacket hfits s)
  simp only [bytesAt_flatten_cons, hfl] at hrest
  exact ⟨hvector, hrest.2.1⟩

theorem HasEffect.data_vectors {sync : Half} {seq opt : Byte} {s t : State}
    (h : HasEffect (.data sync seq opt) s t) :
    bytesAt t.out 18 [0x00, 0x00, 0x00, 0x04] ∧ bytesAt t.out 40 [0x00, 0x00, 0x00, 0x02] := by
  obtain ⟨-, -, rfl⟩ := h
  exact commitPacket_vectors rfl ((length_dataFields sync seq opt s).trans_le (by decide))

theorem HasEffect.sync_vectors {sync : Half} {seq : Byte} {s t : State} (h : HasEffect (.sync sync seq) s t) :
    bytesAt t.out 18 [0x00, 0x00, 0x00, 0x08] ∧ bytesAt t.out 40 [0x00, 0x00, 0x00, 0x01] := by
  cases h
  exact commitPacket_vectors rfl ((length_syncFields sync seq s).trans_le (by decide))

theorem HasEffect.disc_vectors {seq : Byte} {s t : State} (h : HasEffect (.disc seq) s t) :
    bytesAt t.out 18 [0x00, 0x00, 0x00, 0x08] ∧ bytesAt t.out 40 [0x00, 0x00, 0x00, 0x02] := by
  obtain ⟨hn, -, rfl⟩ := h
  exact commitPacket_vectors rfl ((length_discFields hn).trans_le (by omega))

/-- Settles O25: each kind has its own pair of vectors, and a packet has one pair (`bytesAt_iff_eq`). -/
theorem packetKindFromVectors : Obligations.PacketKindFromVectors := by
  intro i s t hencode hexec hstatus
  have heffect := hasEffect_of_success hexec hstatus
  cases i with
  | data sync seq opt =>
    obtain ⟨hroot, hframing⟩ := heffect.data_vectors
    simp [bytesAt_iff_eq hroot, bytesAt_iff_eq hframing]
  | sync sync seq =>
    obtain ⟨hroot, hframing⟩ := heffect.sync_vectors
    simp [bytesAt_iff_eq hroot, bytesAt_iff_eq hframing]
  | disc seq =>
    obtain ⟨hroot, hframing⟩ := heffect.disc_vectors
    simp [bytesAt_iff_eq hroot, bytesAt_iff_eq hframing]
  | setcid | setname | setpri | flen => cases hencode

/-! ### `OUT` -/

/-- The packet fits `OUT`, so `OUTLEN` is its length and every byte at or past `OUTLEN` is kept. -/
theorem commitPacket_keeps_past_outLen {packet : List Byte} (h : packet.length ≤ 1144) (s : State) :
    ∀ k < 1144, (commitPacket packet s).outLen.toNat ≤ k →
      (commitPacket packet s).out.get k = s.out.get k := by
  intro k hk hpast
  rw [commitPacket_outLen, BitVec.toNat_ofNat, Nat.mod_eq_of_lt (by omega)] at hpast
  exact commitPacket_out_kept rfl s k hk hpast

theorem HasEffect.out_eq {i : Instr} {s t : State} (h : HasEffect i s t) (hi : isEncode i = false) :
    t.out = s.out := by
  cases i with
  | setcid => cases h; rfl
  | setname n => obtain ⟨-, rfl⟩ := h; rfl
  | setpri p => obtain ⟨-, rfl⟩ := h; rfl
  | flen len => obtain ⟨-, rfl⟩ := h; rfl
  | data | sync | disc => cases hi

theorem HasEffect.keeps_past_outLen {i : Instr} {s t : State} (h : HasEffect i s t)
    (hi : isEncode i = true) : ∀ k < 1144, t.outLen.toNat ≤ k → t.out.get k = s.out.get k := by
  cases i with
  | data sync seq opt =>
    obtain ⟨-, -, rfl⟩ := h
    exact commitPacket_keeps_past_outLen ((length_dataFields sync seq opt s).trans_le (by decide)) s
  | sync sync seq =>
    cases h
    exact commitPacket_keeps_past_outLen ((length_syncFields sync seq s).trans_le (by decide)) s
  | disc seq =>
    obtain ⟨hn, -, rfl⟩ := h
    exact commitPacket_keeps_past_outLen ((length_discFields hn).trans_le (by omega)) s
  | setcid | setname | setpri | flen => cases hi

/-- A command that is no encode command, or fails, keeps `OUT`. -/
theorem exec_out_eq {i : Instr} {s t : State} (h : exec i s = .next t)
    (hi : isEncode i = false ∨ t.status ≠ 0x01) : t.out = s.out := by
  obtain heffect | ⟨c, rfl, -⟩ := exec_next_cases h
  · exact heffect.out_eq (hi.resolve_right fun hfailed => hfailed heffect.status_eq)
  · rfl

theorem exec_keeps_past_outLen {i : Instr} {s t : State} (h : exec i s = .next t) (hi : isEncode i = true) :
    ∀ k < 1144, t.outLen.toNat ≤ k → t.out.get k = s.out.get k := by
  obtain heffect | ⟨c, rfl, -⟩ := exec_next_cases h
  · exact heffect.keeps_past_outLen hi
  · exact fun _ _ _ => rfl

theorem hostWrite_out (loc : Loc) (v : Half) (s : State) : (hostWrite loc v s).out = s.out := by
  rw [hostWrite_frame]

/-- Settles O35: the frames of a command (`exec_out_eq`, `exec_keeps_past_outLen`), and of the steps that run
none only a `RESET` reaches `OUT`. -/
theorem outIsWrittenOnlyBelowOutlen : Obligations.OutIsWrittenOnlyBelowOutlen := by
  refine ⟨fun i s t hexec =>
      ⟨exec_out_eq hexec, fun k hk hencode => exec_keeps_past_outLen hexec hencode k hk⟩,
    fun s t hstep hchanged => ?_⟩
  obtain ⟨-, rfl⟩ | ⟨rest, ⟨w, i, hhost, hdecode, hexec⟩ | ⟨w, -, -, rfl⟩ | ⟨loc, v, -, rfl⟩ | ⟨loc, -, rfl⟩
    | ⟨hhost, -⟩⟩ := step_cases hstep
  · exact absurd rfl hchanged
  · have hkept := mt (exec_out_eq hexec) hchanged
    rw [not_or, Bool.not_eq_false, ne_eq, not_not] at hkept
    exact ⟨rest, .inr ⟨w, i, hhost, hdecode, hkept⟩⟩
  · exact absurd rfl hchanged
  · exact absurd (hostWrite_out loc v _) hchanged
  · exact absurd rfl hchanged
  · exact ⟨rest, .inl hhost⟩

end Sys2Proof.Machine
end

section
/-! PROOFS. Completion and errors (60_exceptions.md R230, R232) and the commands right after reset
(70_reset_and_hazards.md R261).

A command reports success or the error it raises (`exec_status`); each error is reached from a state that
fails its check. -/

namespace Sys2Proof.Machine

/-! ### Completion -/

/-- What holds of a success's `STATUS`, and of that of every error the command's checks can raise in `s`, holds
of the `STATUS` it leaves. -/
theorem exec_status {i : Instr} {s : State} {P : Byte → Prop} (success : P statusSuccess)
    (error : ∀ c, Raises i s c → P (statusError c)) : ∃ t, exec i s = .next t ∧ P t.status := by
  obtain ⟨t, hexec, heffect⟩ | ⟨c, hexec, hraises⟩ := exec_cases i s
  · exact ⟨t, hexec, heffect.status_eq ▸ success⟩
  · exact ⟨_, hexec, error c hraises⟩

/-- `E_ILLEGAL` is the decoder's error and no command's (60_exceptions.md R232). -/
theorem Raises.ne_illegal {i : Instr} {s : State} {c : ErrorCode} (h : Raises i s c) : c ≠ .illegal := by
  rintro rfl
  cases i <;> simp [Raises] at h

theorem statusError_mem_of_ne_illegal {c : ErrorCode} (h : c ≠ .illegal) :
    statusError c ∈ ([0x12, 0x22, 0x32, 0x42, 0x52, 0x62] : List Byte) := by
  cases c with
  | illegal => exact absurd rfl h
  | name | priority | slots | universeNumber | page | length => decide

/-- Settles O29: a command reports success or an error other than `E_ILLEGAL`, and every step completes
(`actionsApplyInOrder`). -/
theorem everyCommandCompletes : Obligations.EveryCommandCompletes := by
  refine ⟨fun i s => ?_, fun s => ?_⟩
  · exact exec_status (P := fun b => b = 0x01 ∨ b ∈ ([0x12, 0x22, 0x32, 0x42, 0x52, 0x62] : List Byte))
      (.inl rfl) fun c hraises => .inr (statusError_mem_of_ne_illegal hraises.ne_illegal)
  · cases hhost : s.host with
    | nil => exact ⟨s, step_idle hhost⟩
    | cons a rest =>
      obtain ⟨t, hstep, -⟩ := actionsApplyInOrder.2 s a rest hhost
      exact ⟨t, hstep⟩

/-! ### The errors of each command -/

/-- A check that fails in some state gives a run that ends in its error. -/
theorem exists_exec_status (i : Instr) (s : State) {c : ErrorCode} (h : Raises i s c) :
    ∃ s t, exec i s = .next t ∧ t.status = statusError c :=
  ⟨s, _, exec_of_raises h, rfl⟩

/-- Settles O30: the errors of each command are those of `Raises`, and each is raised in the reset state with at
most one operand element changed; the other actions are R35's (`statusRule`). -/
theorem errorsOfEachCommand : Obligations.ErrorsOfEachCommand := by
  obtain ⟨-, hkept, hreset, -⟩ := statusRule
  refine ⟨fun s => ?setcid, fun n s => ?setname, fun p s => ?setpri, fun sync seq opt s => ?data,
    fun sync seq s => ?sync, fun seq s => ?disc, fun len s => ?flen,
    fun w s c rest hhost hdecode => ⟨_, step_illegal_status hdecode hhost, rfl⟩,
    ⟨0, exists_exec_status (.setname 0) State.reset ⟨by decide, rfl⟩⟩,
    ⟨201, exists_exec_status (.setpri 201) State.reset ⟨by decide, rfl⟩⟩,
    ⟨0, 0, 0, exists_exec_status (.data 0 0 0) State.reset (.inl ⟨by decide, rfl⟩)⟩,
    ⟨0, 0, 0, exists_exec_status (.data 0 0 0) { State.reset with slotCnt := 512 }
      (.inr ⟨rfl, by decide, rfl⟩)⟩,
    ⟨0, exists_exec_status (.disc 0) { State.reset with uCnt := 513 } (.inl ⟨by decide, rfl⟩)⟩,
    ⟨0, exists_exec_status (.disc 0) { State.reset with uCnt := 1 }
      (.inr ⟨by decide, all_universeOk_eq_false (by decide) ⟨0, by decide, .inl (by decide)⟩, rfl⟩)⟩,
    ⟨4096, exists_exec_status (.flen 4096) State.reset ⟨by decide, rfl⟩⟩,
    fun s t rest hstep haccess => hkept s t rest hstep (.inr haccess), hreset⟩
  case setcid | sync => exact exec_status (P := (· = 0x01)) rfl nofun
  case setname =>
    refine exec_status (P := fun b => b = 0x01 ∨ b = 0x12) (.inl rfl) ?_
    rintro c ⟨-, rfl⟩
    exact .inr rfl
  case setpri =>
    refine exec_status (P := fun b => b = 0x01 ∨ b = 0x22) (.inl rfl) ?_
    rintro c ⟨-, rfl⟩
    exact .inr rfl
  case data =>
    refine exec_status (P := fun b => b = 0x01 ∨ b = 0x32 ∨ b = 0x42) (.inl rfl) ?_
    rintro c (⟨-, rfl⟩ | ⟨-, -, rfl⟩)
    · exact .inr (.inl rfl)
    · exact .inr (.inr rfl)
  case disc =>
    refine exec_status (P := fun b => b = 0x01 ∨ b = 0x52 ∨ b = 0x42) (.inl rfl) ?_
    rintro c (⟨-, rfl⟩ | ⟨-, -, rfl⟩)
    · exact .inr (.inl rfl)
    · exact .inr (.inr rfl)
  case flen =>
    refine exec_status (P := fun b => b = 0x01 ∨ b = 0x62) (.inl rfl) ?_
    rintro c ⟨-, rfl⟩
    exact .inr rfl

/-! ### Right after reset -/

/-- Settles O43: each command's own statement, taken at the reset values. -/
theorem commandsRightAfterReset : Obligations.CommandsRightAfterReset := by
  obtain ⟨hcid, hsrcName, -, -, hstg, -⟩ := hasResetValues_reset
  refine ⟨fun sync seq => ?sync, fun sync seq opt => ?data, fun seq => ?disc, fun n hmin hmax => ?setname,
    fun n hrange => ?refused, ?setcid, fun p => ?setpri, fun len => ?flen⟩
  case sync =>
    obtain ⟨-, t, hexec, hframe, -, -, -, -, hcidBytes, -⟩ := syncCommand sync seq State.reset
    exact ⟨t, hexec, congrArg State.status hframe, congrArg State.outLen hframe,
      fun i hi => (hcidBytes i hi).trans (hcid i hi)⟩
  case data =>
    obtain ⟨-, hslots, -⟩ := dataCommand sync seq opt State.reset
    exact ⟨_, hslots (by decide), rfl, rfl⟩
  case disc =>
    obtain ⟨-, -, -, hpacket⟩ := discCommand seq State.reset 0 rfl
    obtain ⟨t, _, hexec, hframe, -, -, -, -, hcidBytes, -, -, hnameBytes, -⟩ := hpacket (by decide) nofun
    exact ⟨t, hexec, congrArg State.status hframe, congrArg State.outLen hframe,
      fun i hi => (hnameBytes i hi).trans (hsrcName i hi), fun i hi => (hcidBytes i hi).trans (hcid i hi)⟩
  case setname =>
    obtain ⟨-, haccepted, -⟩ := setnameCommand n State.reset
    obtain ⟨t, hexec, hframe, hlength, hname⟩ := haccepted ⟨hmin, hmax⟩
    refine ⟨t, hexec, congrArg State.status hframe, hlength, fun i hi => ?_⟩
    rw [hname i hi, hstg i hi, ite_self]
  case refused =>
    obtain ⟨-, -, hrefused⟩ := setnameCommand n State.reset
    exact hrefused hrange
  case setcid =>
    obtain ⟨t, hexec, hframe, hbytes⟩ := setcidCommand.2 State.reset
    exact ⟨t, hexec, congrArg State.status hframe, fun i hi => (hbytes i hi).trans (hstg i (by omega))⟩
  case setpri =>
    obtain ⟨-, haccepted, hrefused⟩ := setpriCommand p State.reset
    by_cases hp : p.toNat ≤ 200
    · obtain ⟨hexec, hlow⟩ := haccepted hp
      exact ⟨_, hexec, by rw [if_pos hp]; exact ⟨rfl, hlow⟩⟩
    · exact ⟨_, hrefused (by omega), by rw [if_neg hp]; exact ⟨rfl, rfl⟩⟩
  case flen =>
    obtain ⟨-, haccepted, hrefused⟩ := flenCommand len State.reset
    by_cases hlen : len.toNat ≤ 4095
    · exact ⟨_, haccepted hlen, by rw [if_pos hlen]; exact ⟨rfl, toNat_flagsAndLength_half hlen⟩⟩
    · exact ⟨_, hrefused (by omega), by rw [if_neg hlen]; exact ⟨rfl, rfl⟩⟩

end Sys2Proof.Machine
end

section
/-! PROOFS. The pseudo-instructions and the source's calls (30_encoding.md R98).

Each expands to a run of writes and at most one command. The writes fill a buffer and set its count, so the run
is the command's own answer on the loaded state, and what each command answers is settled above. -/

namespace Sys2Proof.Machine

/-! ### Runs of writes and a command -/

@[simp] theorem length_writesFrom (base : Nat) (vs : List Half) : (writesFrom base vs).length = vs.length := by
  induction vs generalizing base with
  | nil => rfl
  | cons v vs ih => rw [writesFrom, List.length_cons, List.length_cons, ih]

@[simp] theorem length_asValues (bs : List Byte) : (asValues bs).length = bs.length := List.length_map _

/-- One command word on the port: the run is the command's answer with the port empty. -/
theorem run_command (i : Instr) (s : State) :
    core.run 1 { s with host := [.cmd (encode i)] } = exec i { s with host := [] } := by
  obtain ⟨t, hexec⟩ := exec_completes i { s with host := [] }
  have hstep := stepRunsDecodedCommand { s with host := [.cmd (encode i)] } _ _ i rfl (decodeOfEncode i)
  rw [run_succ (hstep.trans hexec)]
  exact hexec.symm

/-- A run of writes at the head of the port, taken as one load. -/
theorem run_writes {base : Nat} {vs : List Half} {s u : State} (h : afterWrites base vs s = u)
    (rest : List HostAction) :
    core.run vs.length { s with host := writesFrom base vs ++ rest } = .next { u with host := rest } :=
  h ▸ run_writesFrom base vs rest s

/-- The bytes staged from index 0 on, and the staging buffer after them (10_state.md R25). -/
theorem afterWrites_staged {bs : List Byte} (h : bs.length ≤ 64) (s : State) :
    ∃ stg, afterWrites 0x000 (asValues bs) s = { s with stg := stg }
      ∧ ∀ i < 64, stg.get i = if i < bs.length then bs.getD i 0 else s.stg.get i := by
  obtain ⟨hframe, hget⟩ := afterWrites_stg 0 (asValues bs) s (by simpa using h)
  refine ⟨_, hframe, fun i hi => ?_⟩
  rw [hget i hi, length_asValues, Nat.sub_zero, extractLsb'_asValues]
  exact if_congr (by omega) rfl rfl

/-- The slots loaded from index 0 on, and the slot buffer after them (10_state.md R26). -/
theorem afterWrites_slots {slots : List Byte} (h : slots.length ≤ 512) (s : State) :
    ∃ slot, afterWrites 0x200 (asValues slots) s = { s with slot := slot }
      ∧ ∀ i < 512, slot.get i = if i < slots.length then slots.getD i 0 else s.slot.get i := by
  obtain ⟨hframe, hget⟩ := afterWrites_slot 0 (asValues slots) s (by simpa using h)
  refine ⟨_, hframe, fun i hi => ?_⟩
  rw [hget i hi, length_asValues, Nat.sub_zero, extractLsb'_asValues]
  exact if_congr (by omega) rfl rfl

/-- The numbers listed from index 0 on, and the universe list after them (10_state.md R29). -/
theorem afterWrites_listed {us : List Half} (h : us.length ≤ 512) (s : State) :
    ∃ uList, afterWrites 0x400 us s = { s with uList := uList }
      ∧ ∀ i < 512, uList.get i = if i < us.length then us.getD i 0 else s.uList.get i := by
  obtain ⟨hframe, hget⟩ := afterWrites_uList 0 us s (by omega)
  refine ⟨_, hframe, fun i hi => ?_⟩
  rw [hget i hi, Nat.sub_zero]
  exact if_congr (by omega) rfl rfl

/-- Staged bytes, padded with zeros past their end as `SETNAME` pads them, are the bytes themselves. -/
theorem namePadded_get {bs : List Byte} {stg old : Buf 8 64}
    (h : ∀ i < 64, stg.get i = if i < bs.length then bs.getD i 0 else old.get i) :
    ∀ i < 64, (if i < bs.length then stg.get i else 0x00) = bs.getD i 0 := by
  intro i hi
  split
  next hlt => rw [h i hi, if_pos hlt]
  next hge => exact (List.getD_eq_default _ _ (not_lt.mp hge)).symm

/-! ### The loads -/

/-- `LDCID` and `LDNAME`: the bytes are staged, then the command runs. -/
theorem run_staged {bs : List Byte} (h : bs.length ≤ 64) (i : Instr) (s : State) :
    ∃ stg, (∀ k < 64, stg.get k = if k < bs.length then bs.getD k 0 else s.stg.get k)
      ∧ core.run (bs.length + 1) { s with host := writesFrom 0x000 (asValues bs) ++ [.cmd (encode i)] }
        = exec i { s with host := [], stg := stg } := by
  obtain ⟨stg, hload, hget⟩ := afterWrites_staged h s
  refine ⟨stg, hget, ?_⟩
  rw [← length_asValues bs, run_add (run_writes hload _)]
  exact run_command i { s with stg := stg }

/-- A host write of one register at the head of the port. -/
theorem run_wr {n : Nat} {s : State} {loc : Loc} {e : Element} (h : loc.toNat = elementAddr e) (v : Half)
    (rest : List HostAction) :
    core.run (n + 1) { s with host := .wr loc v :: rest }
      = core.run n (writeElement e v { s with host := rest }) :=
  run_succ ((step_wr rfl).trans (congrArg _ (hostWrite_of_toNat_eq h v _)))

/-- `LDUNIV`, before whatever the host does next. -/
theorem run_lduniv {slots : List Byte} (h : slots.length ≤ 512) (u count : Half) (s : State) :
    ∃ slot, (∀ i < 512, slot.get i = if i < slots.length then slots.getD i 0 else s.slot.get i)
      ∧ ∀ rest, core.run (slots.length + 2) { s with host := lduniv u slots count ++ rest }
        = .next { s with host := rest, slot := slot, univ := u, slotCnt := count } := by
  obtain ⟨slot, hload, hget⟩ := afterWrites_slots h s
  refine ⟨slot, hget, fun rest => ?_⟩
  rw [← length_asValues slots, lduniv, List.append_assoc, run_add (run_writes hload _)]
  exact (run_wr (e := .univ) rfl u _).trans
    (run_wr (s := { s with slot := slot, univ := u }) (e := .slotCnt) rfl count rest)

/-- `LDLIST`, before whatever the host does next. -/
theorem run_ldlist {us : List Half} (h : us.length ≤ 512) (s : State) :
    ∃ uList, (∀ i < 512, uList.get i = if i < us.length then us.getD i 0 else s.uList.get i)
      ∧ ∀ rest, core.run (us.length + 1) { s with host := ldlist us ++ rest }
        = .next { s with host := rest, uList := uList, uCnt := BitVec.ofNat 16 us.length } := by
  obtain ⟨uList, hload, hget⟩ := afterWrites_listed h s
  refine ⟨uList, hget, fun rest => ?_⟩
  rw [ldlist, List.append_assoc, run_add (run_writes hload _)]
  exact run_wr (e := .uCnt) rfl _ rest

/-- A length below 65536 is announced unchanged (log entry 9). -/
theorem toNat_announced {n : Nat} (h : n < 65536) : (BitVec.ofNat 16 n).toNat = n := by
  rw [BitVec.toNat_ofNat]
  exact Nat.mod_eq_of_lt h

/-- Settles O27: each load is a run of writes (`run_staged`, `run_lduniv`, `run_ldlist`); `SETCID` and `SETNAME`
then take the staged bytes. -/
theorem pseudoInstructionsLoad : Obligations.PseudoInstructionsLoad := by
  refine fun s => ⟨fun bs hbs => ?ldcid, fun bs hbs => ?ldname, fun u count slots hslots => ?lduniv,
    fun us hus => ?ldlist⟩
  case ldcid =>
    obtain ⟨stg, hget, hrun⟩ := run_staged (bs := bs) (by omega) .setcid s
    rw [hbs] at hget hrun
    refine ⟨_, hrun, rfl, fun i hi => ?_, hget⟩
    exact (stagedCid_get _ hi).trans ((hget i (by omega)).trans (if_pos hi))
  case ldname =>
    obtain ⟨stg, hget, hrun⟩ := run_staged hbs (.setname (BitVec.ofNat 16 bs.length)) s
    have hn := toNat_announced (n := bs.length) (by omega)
    by_cases haccepted : 1 ≤ bs.length ∧ bs.length ≤ 63
    · have heffect : HasEffect (.setname (BitVec.ofNat 16 bs.length)) { s with host := [], stg := stg } _ :=
        ⟨(nameLengthOk_iff _).mpr (hn.symm ▸ haccepted), rfl⟩
      obtain ⟨-, -, hlength, hname⟩ := heffect.setname_name
      refine ⟨_, hrun.trans (exec_of_hasEffect heffect), hget, fun _ => ⟨rfl, hlength.trans hn, fun i hi => ?_⟩,
        fun hrefused => by omega⟩
      rw [hname i hi, hn]
      exact namePadded_get hget i hi
    · have hrefused : nameLengthOk (BitVec.ofNat 16 bs.length) = false :=
        nameLengthOk_eq_false (by omega)
      exact ⟨_, hrun.trans (execSetname_error hrefused _), hget, fun h => absurd h haccepted, fun _ => rfl⟩
  case lduniv =>
    obtain ⟨slot, hget, hrun⟩ := run_lduniv hslots u count s
    exact ⟨_, by simpa using hrun [], rfl, hget⟩
  case ldlist =>
    obtain ⟨uList, hget, hrun⟩ := run_ldlist hus s
    exact ⟨_, by simpa using hrun [], rfl, toNat_announced (n := us.length) (by omega), hget⟩

/-! ### The source's calls -/

/-- `SetSourceName`: the bytes are staged if they fit, and the length is announced either way. -/
theorem run_setSourceName (bs : List Byte) (s : State) :
    ∃ stg, (bs.length ≤ 64 → ∀ i < 64, stg.get i = if i < bs.length then bs.getD i 0 else s.stg.get i)
      ∧ core.run (setSourceName bs).length { s with host := setSourceName bs }
        = exec (.setname (BitVec.ofNat 16 bs.length)) { s with host := [], stg := stg } := by
  unfold setSourceName
  split
  next hfits =>
    obtain ⟨stg, hget, hrun⟩ := run_staged hfits (.setname (BitVec.ofNat 16 bs.length)) s
    exact ⟨stg, fun _ => hget, by simpa [ldname] using hrun⟩
  next hlong => exact ⟨s.stg, fun hfits => absurd hfits hlong, run_command _ s⟩

/-- `DataPacket`: the slots that have a place are loaded, and the length the value has is declared. -/
theorem run_dataPacketCall (sync : Half) (seq opt : Byte) (u : Half) (slots : List Byte) (s : State) :
    ∃ slot, (slots.length = 512 → ∀ i < 512, slot.get i = slots.getD i 0)
      ∧ core.run (dataPacketCall sync seq opt u slots).length
          { s with host := dataPacketCall sync seq opt u slots }
        = exec (.data sync seq opt)
          { s with host := [], slot := slot, univ := u, slotCnt := BitVec.ofNat 16 slots.length } := by
  obtain ⟨slot, hget, hrun⟩ := run_lduniv (slots := slots.take 512) (List.length_take_le ..) u
    (BitVec.ofNat 16 slots.length) s
  refine ⟨slot, fun hlength i hi => ?_, ?_⟩
  · rw [List.take_of_length_le hlength.le, hlength] at hget
    rw [hget i hi, if_pos hi]
  · have hsteps : (dataPacketCall sync seq opt u slots).length = (slots.take 512).length + 2 + 1 := by
      simp [dataPacketCall, lduniv]
    rw [hsteps, dataPacketCall, run_add (hrun _)]
    exact run_command _ { s with slot := slot, univ := u, slotCnt := BitVec.ofNat 16 slots.length }

/-- `DiscoveryPacket`: the numbers are listed if they fit, and their count is announced either way. -/
theorem run_discoveryPacketCall (seq : Byte) (us : List Half) (s : State) :
    ∃ uList, (us.length ≤ 512 → ∀ i < us.length, uList.get i = us.getD i 0)
      ∧ core.run (discoveryPacketCall seq us).length { s with host := discoveryPacketCall seq us }
        = exec (.disc seq) { s with host := [], uList := uList, uCnt := BitVec.ofNat 16 us.length } := by
  unfold discoveryPacketCall
  split
  next hfits =>
    obtain ⟨uList, hget, hrun⟩ := run_ldlist hfits s
    refine ⟨uList, fun _ i hi => (hget i (by omega)).trans (if_pos hi), ?_⟩
    have hsteps : (ldlist us ++ [HostAction.cmd (encode (.disc seq))]).length = us.length + 1 + 1 := by
      simp [ldlist]
    rw [hsteps, run_add (hrun _)]
    exact run_command _ { s with uList := uList, uCnt := BitVec.ofNat 16 us.length }
  next hlong =>
    exact ⟨s.uList, fun hfits => absurd hfits hlong, (run_wr (e := .uCnt) rfl _ _).trans
      (run_command _ { s with uCnt := BitVec.ofNat 16 us.length })⟩

theorem setSourceName_answers {bs : List Byte} (hbs : bs.length < 65536) (s : State) :
    ∃ t : State, core.run (setSourceName bs).length { s with host := setSourceName bs } = .next t
      ∧ (1 ≤ bs.length ∧ bs.length ≤ 63 →
        t.status = 0x01 ∧ t.nameLen.toNat = bs.length ∧ ∀ i < 64, t.srcName.get i = bs.getD i 0)
      ∧ (bs.length = 0 ∨ 64 ≤ bs.length →
        t.status = 0x12 ∧ t.nameLen = s.nameLen ∧ t.srcName = s.srcName) := by
  obtain ⟨stg, hget, hrun⟩ := run_setSourceName bs s
  have hn := toNat_announced hbs
  obtain ⟨-, haccepted, hrefused⟩ := setnameCommand (BitVec.ofNat 16 bs.length)
    { s with host := [], stg := stg }
  rw [hn] at haccepted hrefused
  by_cases hrange : 1 ≤ bs.length ∧ bs.length ≤ 63
  · obtain ⟨t, hexec, hframe, hlength, hname⟩ := haccepted hrange
    exact ⟨t, hrun.trans hexec, fun _ => ⟨congrArg State.status hframe, hlength, fun i hi =>
      (hname i hi).trans (namePadded_get (hget (by omega)) i hi)⟩, fun h => by omega⟩
  · exact ⟨_, hrun.trans (hrefused (by omega)), fun h => absurd h hrange, fun _ => ⟨rfl, rfl, rfl⟩⟩

/-- A negative priority becomes a number above 200 (30_encoding.md R96). -/
theorem toNat_ofInt_priority {p : Int} (hmin : -32768 ≤ p) (hmax : p < 65536) :
    (0 ≤ p ∧ ((BitVec.ofInt 16 p).toNat : Int) = p) ∨ (p < 0 ∧ 200 < (BitVec.ofInt 16 p).toNat) := by
  rw [BitVec.toNat_ofInt]
  omega

theorem setPriority_answers {p : Int} (hmin : -32768 ≤ p) (hmax : p < 65536) (s : State) :
    ∃ t : State, core.run 1 { s with host := setPriority p } = .next t
      ∧ (0 ≤ p ∧ p ≤ 200 → t.status = 0x01 ∧ (t.priority.toNat : Int) = p)
      ∧ (p < 0 ∨ 200 < p → t.status = 0x22 ∧ t.priority = s.priority) := by
  have hrun := run_command (.setpri (BitVec.ofInt 16 p)) s
  have hvalue := toNat_ofInt_priority hmin hmax
  obtain ⟨-, haccepted, hrefused⟩ := setpriCommand (BitVec.ofInt 16 p) { s with host := [] }
  by_cases hrange : 0 ≤ p ∧ p ≤ 200
  · obtain ⟨hexec, hlow⟩ := haccepted (by omega)
    refine ⟨_, hrun.trans hexec, fun _ => ⟨rfl, ?_⟩, fun h => by omega⟩
    rw [hlow]
    omega
  · exact ⟨_, hrun.trans (hrefused (by omega)), fun h => absurd h hrange, fun _ => ⟨rfl, rfl⟩⟩

theorem bytesAt_cons {o : Buf 8 1144} {off : Nat} {b : Byte} {bs : List Byte} (hb : o.get off = b)
    (hbs : bytesAt o (off + 1) bs) : bytesAt o off (b :: bs) := by
  rintro (_ | k) hk
  · exact hb
  · have hget := hbs k (Nat.lt_of_succ_lt_succ hk)
    rwa [Nat.add_right_comm, Nat.add_assoc] at hget

theorem heldPacket_eq_nil {s : State} (h : s.outLen = 0) : heldPacket s = [] := by
  rw [heldPacket, h]
  exact List.take_zero

theorem dataPacketCall_answers (sync : Half) (seq opt : Byte) (u : Half) {slots : List Byte}
    (hslots : slots.length < 65536) (s : State) :
    ∃ t : State, core.run (dataPacketCall sync seq opt u slots).length
        { s with host := dataPacketCall sync seq opt u slots } = .next t
      ∧ (slots.length ≠ 512 → t.status = 0x32 ∧ heldPacket t = [] ∧ t.out = s.out)
      ∧ (slots.length = 512 → 1 ≤ u.toNat ∧ u.toNat ≤ 63999 →
        t.status = 0x01 ∧ t.outLen = 638
          ∧ bytesAt t.out 109 [sync.extractLsb' 8 8, sync.extractLsb' 0 8, seq, opt &&& 0xE0,
              u.extractLsb' 8 8, u.extractLsb' 0 8]
          ∧ ∀ i < 512, t.out.get (126 + i) = slots.getD i 0)
      ∧ (slots.length = 512 → u.toNat = 0 ∨ 63999 < u.toNat →
        t.status = 0x42 ∧ heldPacket t = [] ∧ t.out = s.out) := by
  obtain ⟨slot, hget, hrun⟩ := run_dataPacketCall sync seq opt u slots s
  obtain ⟨-, hcount, hrange, hpacket⟩ := dataCommand sync seq opt
    { s with host := [], slot := slot, univ := u, slotCnt := BitVec.ofNat 16 slots.length }
  by_cases hlength : slots.length = 512
  · have hdeclared : BitVec.ofNat 16 slots.length = 512 := by rw [hlength]; rfl
    by_cases hu : 1 ≤ u.toNat ∧ u.toNat ≤ 63999
    · obtain ⟨t, hexec, hframe, -, -, -, -, -, -, -, -, -, -, -, hsync, hseq, hopt, huniv, -, -, -, -, -, -, -,
        hslot⟩ := hpacket hdeclared hu.1 hu.2
      refine ⟨t, hrun.trans hexec, fun hne => absurd hlength hne, fun _ _ => ⟨congrArg State.status hframe,
        congrArg State.outLen hframe, ?_, fun i hi => (hslot i hi).trans (hget hlength i hi)⟩,
        fun _ h => by omega⟩
      obtain ⟨hhigh, hlow⟩ := bytesAt_two hsync
      exact bytesAt_cons hhigh (bytesAt_cons hlow (bytesAt_cons hseq (bytesAt_cons hopt huniv)))
    · exact ⟨_, hrun.trans (hrange hdeclared (by simp only; omega)), fun hne => absurd hlength hne,
        fun _ h => absurd h hu, fun _ _ => ⟨rfl, heldPacket_eq_nil rfl, rfl⟩⟩
  · have hdeclared : BitVec.ofNat 16 slots.length ≠ 512 := fun heq =>
      hlength ((toNat_announced hslots).symm.trans (congrArg BitVec.toNat heq))
    exact ⟨_, hrun.trans (hcount hdeclared), fun _ => ⟨rfl, heldPacket_eq_nil rfl, rfl⟩,
      fun h => absurd h hlength, fun h => absurd h hlength⟩

theorem syncPacketCall_answers (sync : Half) (seq : Byte) (s : State) :
    ∃ t : State, core.run 1 { s with host := syncPacketCall sync seq } = .next t
      ∧ t.status = 0x01 ∧ t.outLen = 49
      ∧ bytesAt t.out 44 [seq, sync.extractLsb' 8 8, sync.extractLsb' 0 8] := by
  obtain ⟨-, t, hexec, hframe, -, -, -, -, -, -, -, hseq, hsync, -⟩ :=
    syncCommand sync seq { s with host := [] }
  exact ⟨t, (run_command (.sync sync seq) s).trans hexec, congrArg State.status hframe,
    congrArg State.outLen hframe, bytesAt_cons hseq hsync⟩

/-- A list non-decreasing by index is non-decreasing pair by pair. -/
theorem pairwise_of_getD_le {l : List Half}
    (h : ∀ j k, j ≤ k → k < l.length → (l.getD j 0).toNat ≤ (l.getD k 0).toNat) :
    l.Pairwise fun a b => a.toNat ≤ b.toNat := by
  rw [List.pairwise_iff_getElem]
  intro j k hj hk hjk
  rw [← List.getD_eq_getElem _ 0 hj, ← List.getD_eq_getElem _ 0 hk]
  exact h j k hjk.le hk

/-- The entries read one by one are the list. -/
theorem map_range_eq_of_getD {f : Nat → Half} {l : List Half} (h : ∀ i < l.length, f i = l.getD i 0) :
    (List.range l.length).map f = l := by
  refine List.ext_getElem (by simp) fun i _ hi => ?_
  rw [List.getElem_map, List.getElem_range, h i hi, List.getD_eq_getElem _ 0 hi]

theorem discoveryPacketCall_answers (seq : Byte) {us : List Half} (hus : us.length < 65536) (s : State) :
    ∃ t : State, core.run (discoveryPacketCall seq us).length
        { s with host := discoveryPacketCall seq us } = .next t
      ∧ (512 < us.length → t.status = 0x52 ∧ heldPacket t = [] ∧ t.out = s.out)
      ∧ (us.length ≤ 512 → (∃ u ∈ us, u.toNat = 0 ∨ 63999 < u.toNat) →
        t.status = 0x42 ∧ heldPacket t = [] ∧ t.out = s.out)
      ∧ (us.length ≤ 512 → (∀ u ∈ us, 1 ≤ u.toNat ∧ u.toNat ≤ 63999) →
        t.status = 0x01 ∧ t.outLen.toNat = 120 + 2 * us.length
          ∧ ∃ S : List Half, S.Perm us ∧ S.Pairwise (fun a b => a.toNat ≤ b.toNat)
            ∧ ∀ k < us.length, t.out.get (120 + 2 * k) = (S.getD k 0).extractLsb' 8 8
              ∧ t.out.get (121 + 2 * k) = (S.getD k 0).extractLsb' 0 8) := by
  obtain ⟨uList, hget, hrun⟩ := run_discoveryPacketCall seq us s
  obtain ⟨-, hpage, hrange, hpacket⟩ := discCommand seq
    { s with host := [], uList := uList, uCnt := BitVec.ofNat 16 us.length }
    us.length (toNat_announced hus).symm
  by_cases hfits : us.length ≤ 512
  · by_cases hvalid : ∀ u ∈ us, 1 ≤ u.toNat ∧ u.toNat ≤ 63999
    · have hentries : ∀ i < us.length, 1 ≤ (uList.get i).toNat ∧ (uList.get i).toNat ≤ 63999 := by
        intro i hi
        rw [hget hfits i hi, List.getD_eq_getElem _ 0 hi]
        exact hvalid _ (List.getElem_mem hi)
      obtain ⟨t, S, hexec, hframe, -, -, -, -, -, -, -, -, -, -, -, -, -, hperm, hsorted, hbytes⟩ :=
        hpacket hfits hentries
      rw [map_range_eq_of_getD (hget hfits)] at hperm
      refine ⟨t, hrun.trans hexec, fun h => by omega, fun _ ⟨u, hu, hout⟩ => ?_, fun _ _ =>
        ⟨congrArg State.status hframe, ?_, S, hperm, pairwise_of_getD_le (hperm.length_eq ▸ hsorted), hbytes⟩⟩
      · have hin := hvalid u hu
        omega
      · exact (congrArg (BitVec.toNat ∘ State.outLen) hframe).trans (toNat_announced (by omega))
    · have hentry : ∃ i < us.length, (uList.get i).toNat < 1 ∨ 63999 < (uList.get i).toNat := by
        push Not at hvalid
        obtain ⟨u, hu, hout⟩ := hvalid
        obtain ⟨i, hi, rfl⟩ := List.getElem_of_mem hu
        refine ⟨i, hi, ?_⟩
        rw [hget hfits i hi, List.getD_eq_getElem _ 0 hi]
        omega
      exact ⟨_, hrun.trans (hrange hfits hentry), fun h => by omega,
        fun _ _ => ⟨rfl, heldPacket_eq_nil rfl, rfl⟩, fun _ h => absurd h hvalid⟩
  · exact ⟨_, hrun.trans (hpage (by omega)), fun _ => ⟨rfl, heldPacket_eq_nil rfl, rfl⟩,
      fun h => absurd h hfits, fun h => absurd h hfits⟩

/-- Settles O28: each call is its command on the loaded state, whose answer is the command's own statement. -/
theorem sourceCallsAnswer : Obligations.SourceCallsAnswer := fun s =>
  ⟨fun _ hbs => setSourceName_answers hbs s, fun _ hmin hmax => setPriority_answers hmin hmax s,
    fun sync seq opt u _ hslots => dataPacketCall_answers sync seq opt u hslots s,
    fun sync seq => syncPacketCall_answers sync seq s,
    fun seq _ hus => discoveryPacketCall_answers seq hus s⟩

end Sys2Proof.Machine
end
